-- ==== Sys2Proof/Word.lean ====
section
/-! DEFINITION. The two value types of the unit: 00_scope.md section 5 and 40_checksum_function.md R78
(every value is an unsigned 16-bit or 8-bit quantity, a single bit, or a count). -/

namespace Sys2Proof

/-- A 16-bit value: a register, a command word, a checksum (`u16`, R2). -/
abbrev Word := BitVec 16

/-- An 8-bit value: a byte of the buffer or of a frame (`u8`; 8 shifts per byte, R2, R31). -/
abbrev Byte := BitVec 8

end Sys2Proof
end

