-- ==== Sys2Proof/Syntax.lean ====
section
/-! DEFINITION. The commands, one constructor per row of spec/opcode_table.json (30_encoding.md R52, R55; the complete
set, 60_exceptions.md R117). -/

namespace Sys2Proof

/-- The five commands of the unit. Operands are unsigned, unscaled and not extended (R51). -/
inductive Instr where
  /-- Start a computation (41_streaming_ops.md R90). -/
  | ckseed
  /-- Consume one byte carried in the command word (R91). -/
  | ckbyte (imm8 : Byte)
  /-- Finalise (R92). -/
  | ckfin
  /-- Checksum of the first 17 bytes of the buffer (42_block_ops.md R100). -/
  | ckhdr
  /-- Checksum of the first `n` bytes of the buffer, a count carried in 12 bits (R101). -/
  | ckchunk (n : Nat)
  deriving DecidableEq, Repr

/-- The mnemonic of spec/opcode_table.json (R52, R58). -/
def Instr.mnemonic : Instr → String
  | .ckseed => "CKSEED"
  | .ckbyte _ => "CKBYTE"
  | .ckfin => "CKFIN"
  | .ckhdr => "CKHDR"
  | .ckchunk _ => "CKCHUNK"

end Sys2Proof
end

