-- ==== Sys2Proof/Config.lean ====
section
/-! DEFINITION. The fixed parameters of the block (00_scope.md R2: none is configurable), the one open parameter
`BASE` (R13, 92_eei_decisions.md D20), and the two free values the spec leaves open (93_implementation_defined.md
U1, U3). A free value is an opaque constant: nothing can evaluate it. -/

namespace Sys2Proof.Config

/-- `POLY`, the reflected polynomial (R2). -/
def poly : Word := 0x8408

/-- `SEED`, the running register's starting value (R2). -/
def seed : Word := 0xFFFF

/-- `BYTE_BITS`, the shifts per input byte (R2). -/
def byteBits : Nat := 8

/-- `HDR_LEN`, the bytes `CKHDR` reads: offsets 0 to 16 (R2; 90_conflicts.md C1). -/
def hdrLen : Nat := 17

/-- `HDR_FRAME`, the whole header frame (R2). -/
def hdrFrame : Nat := 19

/-- `CHUNK_MAX`, the largest chunk payload and the largest legal `CKCHUNK` length (R2, R57). -/
def chunkMax : Nat := 1024

/-- `CK_BYTES`, the size of a stored checksum (R2). -/
def ckBytes : Nat := 2

/-- `ZERO_RESULT`, the checksum of length 0 (R2, R76). -/
def zeroResult : Word := 0x0000

/-- The size of the name field with its reserved terminator, offsets 0 to 12 of the header (20_memory.md R37). -/
def nameField : Nat := 13

/-- The longest destination name the 12-byte name buffer holds (20_memory.md R37). -/
def nameMax : Nat := 12

/-- The retries one frame may have (60_exceptions.md R120). -/
def maxRetries : Nat := 5

/-- `BASE`, where a platform may map the ports (R13, D20): open, and no rule reads it (log 10). -/
opaque portBase : Nat

/-- FREE VALUE (U1, log 4): what the `n`-th draw of an unspecified `RES` reads as. -/
opaque freeRes : Nat → Word

/-- FREE VALUE (U3, log 5): what an offset the host never wrote holds, in the buffer presented at draw `n`. -/
opaque freeByte : Nat → Nat → Byte

end Sys2Proof.Config
end

