-- ==== Sys2Proof/WellFormed.lean ====
section
/-! DEFINITION. The two checks on a command as syntax: that its operand fits the word (30_encoding.md R51) and that its
operand is legal (R57, R58). An operand of `CKCHUNK` that fits but is not legal still decodes; the command is then
refused when it runs (R57). -/

namespace Sys2Proof

/-- The operand fits its field: `imm8` by its type, `n` in the 12 bits of `arg` (R51). -/
def Instr.wellFormed : Instr → Bool
  | .ckseed | .ckbyte _ | .ckfin | .ckhdr => true
  | .ckchunk n => decide (n < 4096)

/-- The operand is one the assembler and the length rule allow: `0 <= n <= 1024` (R57, R58). -/
def Instr.legal : Instr → Bool
  | .ckseed | .ckbyte _ | .ckfin | .ckhdr => true
  | .ckchunk n => decide (n ≤ Config.chunkMax)

end Sys2Proof
end

