-- ==== Sys2Proof/Decode.lean ====
section
/-! DEFINITION. Decoding of a command word, total on all 65536 words (30_encoding.md R50 to R57), the encoder, and the
opcode map of R52 as a list of rows. A command is one 16-bit word presented whole on the `cmd` port, so there is no
instruction byte order (20_memory.md R35). -/

namespace Sys2Proof

/-- Why a word does not decode: it matches no row of the opcode map (R56). -/
inductive DecodeError where
  /-- `IllegalCommand`, with the word (60_exceptions.md R111, X1). -/
  | illegalCommand (w : Word)
  deriving DecidableEq, Repr

/-- Field `op`, bits 15:12 (R50). -/
def opField (w : Word) : BitVec 4 := w.extractLsb' 12 4

/-- Field `arg`, bits 11:0 (R50). -/
def argField (w : Word) : BitVec 12 := w.extractLsb' 0 12

/-- `arg[7:0]`, the byte operand of `CKBYTE` (R51). -/
def argByte (a : BitVec 12) : Byte := a.extractLsb' 0 8

/-- `arg[11:8]`, which must be zero in `CKBYTE` (R51). -/
def argHigh (a : BitVec 12) : BitVec 4 := a.extractLsb' 8 4

/-- The decoding procedure of R53; the range of `CKCHUNK` is checked when it runs (R57). -/
def decode (w : Word) : Except DecodeError Instr :=
  let op := opField w
  let arg := argField w
  if op = 0x1 ∧ arg = 0 then .ok .ckseed
  else if op = 0x2 ∧ argHigh arg = 0 then .ok (.ckbyte (argByte arg))
  else if op = 0x3 ∧ arg = 0 then .ok .ckfin
  else if op = 0x4 ∧ arg = 0 then .ok .ckhdr
  else if op = 0x5 then .ok (.ckchunk arg.toNat)
  else .error (.illegalCommand w)

/-- The word of a command: the row's match with the operand in its field (R51, R52, R58). -/
def encode : Instr → Word
  | .ckseed => 0x1000
  | .ckbyte b => 0x2000 ||| b.setWidth 16
  | .ckfin => 0x3000
  | .ckhdr => 0x4000
  | .ckchunk n => 0x5000 ||| (BitVec.ofNat 12 n).setWidth 16

/-- One row of the opcode map: a word matches when `(word & mask) = pattern` (R52). -/
structure OpcodeRow where
  /-- The row's mnemonic, as spec/opcode_table.json spells it. -/
  mnemonic : String
  /-- The table's `match`. -/
  pattern : Word
  /-- The table's `mask`. -/
  mask : Word
  deriving DecidableEq, Repr

/-- Whether a word matches a row (R52). -/
def OpcodeRow.matchesWord (r : OpcodeRow) (w : Word) : Bool := w &&& r.mask == r.pattern

/-- The complete opcode map of R52, in the table's order. -/
def opcodeMap : List OpcodeRow :=
  [ { mnemonic := "CKSEED", pattern := 0x1000, mask := 0xFFFF },
    { mnemonic := "CKBYTE", pattern := 0x2000, mask := 0xFF00 },
    { mnemonic := "CKFIN", pattern := 0x3000, mask := 0xFFFF },
    { mnemonic := "CKHDR", pattern := 0x4000, mask := 0xFFFF },
    { mnemonic := "CKCHUNK", pattern := 0x5000, mask := 0xF000 } ]

/-- The row of a command. -/
def opcodeRow : Instr → OpcodeRow
  | .ckseed => { mnemonic := "CKSEED", pattern := 0x1000, mask := 0xFFFF }
  | .ckbyte _ => { mnemonic := "CKBYTE", pattern := 0x2000, mask := 0xFF00 }
  | .ckfin => { mnemonic := "CKFIN", pattern := 0x3000, mask := 0xFFFF }
  | .ckhdr => { mnemonic := "CKHDR", pattern := 0x4000, mask := 0xFFFF }
  | .ckchunk _ => { mnemonic := "CKCHUNK", pattern := 0x5000, mask := 0xF000 }

/-- The command word that the opcode table's bit numbering gives: `w`'s low `nbits` bits, every higher bit 0. -/
def tableWord (nbits w : Nat) : Word := BitVec.ofNat 16 (w % 2 ^ nbits)

/-- The command this decoder reads from a word numbered as spec/opcode_table.json numbers it. -/
def decodeTableWord (nbits w : Nat) : Option Instr :=
  match decode (tableWord nbits w) with
  | .ok i => some i
  | .error _ => none

end Sys2Proof
end

