-- ==== Sys2Proof/Machine/Checksum.lean ====
section
/-! DEFINITION. The pure functions every command is built from (40_checksum_function.md R70 to R77), and the second
forms the spec derives (R72, R81). -/

namespace Sys2Proof.Machine

/-- `BitStep(c, d)`, one shift of the running register (R70). -/
def bitStep (c : Word) (d : Bool) : Word :=
  let fb := xor (c.getLsbD 0) d
  let s := c >>> 1
  if fb then s ^^^ Config.poly else s

/-- `ByteStep(c, b)`: the eight bits of `b` fed to `BitStep`, bit 0 first (R71). -/
def byteStep (c : Word) (b : Byte) : Word :=
  (List.range Config.byteBits).foldl (fun acc i => bitStep acc (b.getLsbD i)) c

/-- `Run(c, xs)`: the running register after the bytes `xs` in that order (R73). -/
def runBytes : Word → List Byte → Word
  | c, [] => c
  | c, x :: rest => runBytes (byteStep c x) rest

/-- `bswap16(a)`: the two bytes of `a` exchanged (00_scope.md section 5). -/
def bswap16 (a : Word) : Word := (a <<< 8) ||| ((a >>> 8) &&& 0xFF)

/-- `Fin(c)`: inversion, then exchange of the two bytes (R74). -/
def finalise (c : Word) : Word := bswap16 (~~~c)

/-- `checksum16(buf, n)`, by cases as the source words it (R75, R76). DESIGN CHOICE: `none` where `n` exceeds the buffer, for
which the contract has no meaning (log 23). -/
def checksum16 (buf : List Byte) (n : Nat) : Option Word :=
  if buf.length < n then none
  else if n = 0 then some Config.zeroResult
  else some (finalise (runBytes Config.seed (buf.take n)))

/-- `Shift8(x)` of the byte-at-once form (R72). -/
def shift8 (x : Word) : Word :=
  (List.range Config.byteBits).foldl
    (fun acc _ => if acc.getLsbD 0 then (acc >>> 1) ^^^ Config.poly else acc >>> 1) x

/-- `T(c) = BitStep(c, 0)` of the linearity law (R81). -/
def stepZero (c : Word) : Word := bitStep c false

end Sys2Proof.Machine
end

