-- ==== Sys2Proof/Machine/State.lean ====
section
/-! DEFINITION. The state of the unit and of its host interface as plain data (10_state.md R10 to R20), its reset
value (R19; 70_reset_and_hazards.md R130), and the reasons a step can stop. -/

namespace Sys2Proof.Machine

/-- Why a step stops with a fault. The unit itself has no faults (60_exceptions.md R113): both are raised by a host
action at an offset that does not exist. -/
inductive Fault where
  /-- Raised by a host write (`hostWrite`) at an offset not below `M` (10_state.md R12). Safe: the run stops (log 8). -/
  | hostWriteOutside (offset m : Nat)
  /-- Raised by `.put n` (`hostPut`) when `M < n + 2` (30_encoding.md R59). Safe: the run stops (log 8). -/
  | putOutside (n m : Nat)
  deriving DecidableEq, Repr

/-- Why a command is refused: the complete list of 60_exceptions.md R111, and the host's own constructor. A refusal ends
the run for good (R110). -/
inductive Refusal where
  /-- X1 `IllegalCommand`: raised by the step when the word does not decode (R56). Safe: the run stops. -/
  | illegalCommand (w : Word)
  /-- X2 `LengthRange`: raised by `CKCHUNK n` when `n > 1024` (R57). Safe: the run stops. -/
  | lengthRange (n : Nat)
  /-- X3 `BufferShort`: raised by `CKHDR` and `CKCHUNK` when the requested length exceeds `M`. Safe: the run stops. -/
  | bufferShort (requested m : Nat)
  /-- An instruction without a meaning in this model; no arm of `exec` uses it. Safe: the run stops. -/
  | notModelled (mnemonic : String)
  deriving DecidableEq, Repr

/-- What the host does between commands, each a step of its own (20_memory.md R42; 70_reset_and_hazards.md R134). -/
inductive HostMove where
  /-- Directive `.buf b0, b1, ...`: the buffer is these bytes (30_encoding.md R59). -/
  | buf (bytes : List Byte)
  /-- The host presents a buffer of `m` bytes of which it has written none (00_scope.md R3; R132). -/
  | present (m : Nat)
  /-- `MemWrite(offset, 1, b)`, performed by the host (10_state.md R12). -/
  | write (offset : Nat) (b : Byte)
  /-- Directive `.put n`: store `RES` little-endian at `n` and `n + 1` (20_memory.md R35; R59). -/
  | put (n : Nat)
  /-- Directive `.read`: read the `res` port (R13, R59). -/
  | readRes
  /-- Read the `crc` port (R13; 92_eei_decisions.md D28). -/
  | readCrc
  deriving DecidableEq, Repr

/-- One action of the host: a word on the `cmd` port (10_state.md R13), or a move of its own. -/
inductive HostAction where
  | cmd (w : Word)
  | host (m : HostMove)
  deriving DecidableEq, Repr

/-- A value the host has read from a port (R13). -/
inductive PortRead where
  | res (v : Word)
  | crc (v : Word)
  deriving DecidableEq, Repr

/-- The input buffer `BUF` (10_state.md R12; 20_memory.md R30). -/
structure Buffer where
  /-- `M`, how many bytes exist: offsets 0 to `size - 1` (00_scope.md R3). -/
  size : Nat
  /-- The bytes the host has written, offsets strictly rising. -/
  cells : List Host.Cell
  /-- The MODEL's own field: which draw the unwritten bytes are (log 5). -/
  draw : Nat
  deriving DecidableEq, Repr

/-- The registers, the buffer, and the host's side of the ports. -/
structure State where
  /-- `CRC`, the running register (R10). -/
  crc : Word
  /-- `RES`, the result register (R11). -/
  res : Word
  /-- The MODEL's own field: a finalising command has completed since reset, so `RES` is specified (R11, U1; log 4). -/
  resSpecified : Bool
  /-- `BUF` and `M` (R12). -/
  buf : Buffer
  /-- What the host will present next, oldest first (R14, R42; log 1). -/
  pending : List HostAction
  /-- What the host has read from the ports, newest first (R13, R59). -/
  reads : List PortRead
  /-- The MODEL's own field: how many free values have been drawn (log 7). -/
  draws : Nat
  deriving DecidableEq, Repr

/-- The buffer before the host has presented any: no byte exists (log 6). -/
def Buffer.empty : Buffer := { size := 0, cells := [], draw := 0 }

/-- The unit right after reset (10_state.md R19; 70_reset_and_hazards.md R130): `CRC` holds the seed, `RES` is unspecified,
no command is in progress. The stored `RES` is a placeholder no port shows (log 3, 4). -/
def State.reset : State :=
  { crc := 0xFFFF
    res := 0x0000
    resSpecified := false
    buf := Buffer.empty
    pending := []
    reads := []
    draws := 0 }

end Sys2Proof.Machine
end

