-- ==== Sys2Proof/Machine/Operands.lean ====
section
/-! DEFINITION. The buffer as an address space (20_memory.md R30 to R33), the one addressing mode of the block commands
(42_block_ops.md R103), and the byte order of a stored result (20_memory.md R35). The operands carried in the
command word are assembled in Sys2Proof/Decode.lean (30_encoding.md R51). -/

namespace Sys2Proof.Machine

/-- The written byte at an offset, if the host has written one. -/
def lookupCell (a : Nat) : List Host.Cell → Option Byte
  | [] => none
  | (k, v) :: rest => if k = a then some v else lookupCell a rest

/-- The cells with one byte written, offsets kept strictly rising. -/
def insertCell (a : Nat) (v : Byte) : List Host.Cell → List Host.Cell
  | [] => [(a, v)]
  | (k, x) :: rest =>
    if a < k then (a, v) :: (k, x) :: rest
    else if a = k then (a, v) :: rest
    else (k, x) :: insertCell a v rest

/-- Cells for consecutive offsets. -/
def cellsFrom (a : Nat) : List Byte → List Host.Cell
  | [] => []
  | b :: rest => (a, b) :: cellsFrom (a + 1) rest

/-- Offsets strictly rise from `lo` and stay below `m`. -/
def cellsCanonical (lo m : Nat) : List Host.Cell → Bool
  | [] => true
  | (k, _) :: rest => decide (lo ≤ k) && decide (k < m) && cellsCanonical (k + 1) m rest

/-- The canonical form of the buffer: offsets strictly rising, each below `M`. An unlisted offset holds no defined value
(log 5), so no entry can equal what it reads as. -/
def Buffer.wf (b : Buffer) : Bool := cellsCanonical 0 b.size b.cells

/-- The byte at an offset: the one the host wrote, else a free value (R132, U3; log 5). -/
def Buffer.byteAt (b : Buffer) (a : Nat) : Byte :=
  (lookupCell a b.cells).getD (Config.freeByte b.draw a)

/-- `MemRead(a, 1) = BUF[a]`, for the offsets that exist (R30, R31); no side effect (R33). -/
def memRead (b : Buffer) (a : Nat) : Option Byte :=
  if a < b.size then some (b.byteAt a) else none

/-- The input of a block command: `BUF[0] .. BUF[n-1]`, each offset once, ascending (R33, R103). -/
def blockBytes (b : Buffer) (n : Nat) : List Byte := (List.range n).map b.byteAt

/-- `MemWrite(a, 1, v)` on an offset that exists. -/
def Buffer.setByte (b : Buffer) (a : Nat) (v : Byte) : Buffer :=
  { b with cells := insertCell a v b.cells }

/-- `v[7:0]` (R35). -/
def lowByte (v : Word) : Byte := v.extractLsb' 0 8

/-- `v[15:8]` (R35). -/
def highByte (v : Word) : Byte := v.extractLsb' 8 8

/-- `LE16(b0, b1) = b0 | (b1 << 8)` (00_scope.md section 5). -/
def le16 (b0 b1 : Byte) : Word := b0.setWidth 16 ||| (b1.setWidth 16 <<< 8)

/-- A stored checksum: low byte at the lower offset (R35). -/
def storedBytes (v : Word) : List Byte := [lowByte v, highByte v]

end Sys2Proof.Machine
end

