-- ==== Sys2Proof/Machine/Ops.lean ====
section
/-! DEFINITION. The named operations the meanings are built from: writing the two registers, refusing a command
(60_exceptions.md R110), the shared body of the block commands, reading the ports, and reset. The unit takes no
exception and returns from none (R113, R114): refusing is all there is. -/

namespace Sys2Proof.Machine

/-- `CRC <- v` (10_state.md R10). -/
def State.setCrc (s : State) (v : Word) : State := { s with crc := v }

/-- `RES <- v`, all 16 bits (R11); from here on `RES` is specified. -/
def State.setRes (s : State) (v : Word) : State := { s with res := v, resSpecified := true }

/-- The state with what the host will present replaced. -/
def State.withPending (s : State) (actions : List HostAction) : State := { s with pending := actions }

/-- `refuse <Reason>(info)`: the command has no meaning, the run is over for good, nothing is written (R110). -/
def refuse (r : Refusal) : Host.Outcome State Fault Refusal := .refused r

/-- The effect of a block command over a non-empty range, once its checks have passed (42_block_ops.md R100, R101). -/
def absorbBuffer (n : Nat) (s : State) : State :=
  let c := runBytes Config.seed (blockBytes s.buf n)
  (s.setCrc c).setRes (finalise c)

/-- The `res` port: `RES`, or a fresh draw while `RES` is unspecified (R11, R13, U1; log 4). Nothing the spec gives the
machine changes. -/
def readResPort (s : State) : Word × State :=
  if s.resSpecified then (s.res, s) else (Config.freeRes s.draws, { s with draws := s.draws + 1 })

/-- The `crc` port (R13). -/
def readCrcPort (s : State) : Word := s.crc

/-- Reset as the start of a new run (70_reset_and_hazards.md R130, R131): `BUF` is not touched, and what the host will do
and has read is the host's. It is no step. -/
def State.restart (s : State) : State :=
  { s with crc := Config.seed, res := State.reset.res, resSpecified := false }

end Sys2Proof.Machine
end

