-- ==== Sys2Proof/Machine/Block.lean ====
section
/-! DEFINITION. The block commands (42_block_ops.md), with their checks in the order of 60_exceptions.md R112. -/

namespace Sys2Proof.Machine

/-- `CKHDR`: checksum of `BUF[0..16]` (R100). -/
def execCkhdr (s : State) : Host.Outcome State Fault Refusal :=
  if s.buf.size < Config.hdrLen then refuse (.bufferShort Config.hdrLen s.buf.size)
  else .next (absorbBuffer Config.hdrLen s)

/-- `CKCHUNK n`: checksum of `BUF[0..n-1]`, with the zero-length branch as the source words it (R101). -/
def execCkchunk (n : Nat) (s : State) : Host.Outcome State Fault Refusal :=
  if Config.chunkMax < n then refuse (.lengthRange n)
  else if s.buf.size < n then refuse (.bufferShort n s.buf.size)
  else if n = 0 then .next ((s.setCrc Config.seed).setRes Config.zeroResult)
  else .next (absorbBuffer n s)

end Sys2Proof.Machine
end

