-- ==== Sys2Proof/Machine/Streaming.lean ====
section
/-! DEFINITION. The streaming commands (41_streaming_ops.md). -/

namespace Sys2Proof.Machine

/-- `CKSEED`: `CRC <- 0xFFFF` (R90). -/
def execCkseed (s : State) : Host.Outcome State Fault Refusal := .next (s.setCrc Config.seed)

/-- `CKBYTE imm8`: `CRC <- ByteStep(CRC, imm8)` (R91). -/
def execCkbyte (imm8 : Byte) (s : State) : Host.Outcome State Fault Refusal :=
  .next (s.setCrc (byteStep s.crc imm8))

/-- `CKFIN`: `RES <- Fin(CRC)`; `CRC` is unchanged (R92). -/
def execCkfin (s : State) : Host.Outcome State Fault Refusal := .next (s.setRes (finalise s.crc))

end Sys2Proof.Machine
end

