-- ==== Sys2Proof/Machine/Dispatch.lean ====
section
/-! DEFINITION. One arm per command: spec/opcode_table.json, in the table's order (30_encoding.md R52). -/

namespace Sys2Proof.Machine

/-- The meaning of a decoded command. -/
def exec (i : Instr) (s : State) : Host.Outcome State Fault Refusal :=
  match i with
  | .ckseed => Sys2Proof.Machine.execCkseed s
  | .ckbyte imm8 => Sys2Proof.Machine.execCkbyte imm8 s
  | .ckfin => Sys2Proof.Machine.execCkfin s
  | .ckhdr => Sys2Proof.Machine.execCkhdr s
  | .ckchunk n => Sys2Proof.Machine.execCkchunk n s

end Sys2Proof.Machine
end

