-- ==== Sys2Proof/Machine/HostOps.lean ====
section
/-! DEFINITION. What the host does between commands (10_state.md R12, R13; 20_memory.md R35; 30_encoding.md R59), and
taking the next host action. -/

namespace Sys2Proof.Machine

/-- The next host action and the state with it taken; `none` while the unit waits (R130). -/
def nextAction (s : State) : Option (HostAction × State) :=
  match s.pending with
  | [] => none
  | a :: rest => some (a, s.withPending rest)

/-- The host presents a buffer of `m` bytes with none written (00_scope.md R3; R132): a new draw for its bytes. -/
def presentBuffer (m : Nat) (s : State) : State :=
  { s with buf := { size := m, cells := [], draw := s.draws }, draws := s.draws + 1 }

/-- `.buf`: `M` is the number of bytes listed, and they are `BUF[0..]` (R59). -/
def hostBuf (bytes : List Byte) (s : State) : Host.Outcome State Fault Refusal :=
  let t := presentBuffer bytes.length s
  .next { t with buf := { t.buf with cells := cellsFrom 0 bytes } }

/-- The host presents a buffer. -/
def hostPresent (m : Nat) (s : State) : Host.Outcome State Fault Refusal := .next (presentBuffer m s)

/-- `MemWrite(offset, 1, b)` by the host; an offset that does not exist faults (log 8). -/
def hostWrite (offset : Nat) (b : Byte) (s : State) : Host.Outcome State Fault Refusal :=
  if offset < s.buf.size then .next { s with buf := s.buf.setByte offset b }
  else .fault (.hostWriteOutside offset s.buf.size)

/-- `.put n`: `MemWrite(n, 1, RES[7:0]); MemWrite(n+1, 1, RES[15:8])`, which requires `M >= n + 2` (R35, R59). `RES` is read
for each byte, so while it is unspecified each byte comes from a draw of its own (U1; log 4). -/
def hostPut (n : Nat) (s : State) : Host.Outcome State Fault Refusal :=
  if s.buf.size < n + Config.ckBytes then .fault (.putOutside n s.buf.size)
  else
    let first := readResPort s
    let second := readResPort first.2
    let t := second.2
    .next { t with buf := (t.buf.setByte n (lowByte first.1)).setByte (n + 1) (highByte second.1) }

/-- `.read`: the host reads the `res` port (R13, R59). -/
def hostReadRes (s : State) : Host.Outcome State Fault Refusal :=
  let r := readResPort s
  .next { r.2 with reads := .res r.1 :: r.2.reads }

/-- The host reads the `crc` port (R13). -/
def hostReadCrc (s : State) : Host.Outcome State Fault Refusal :=
  .next { s with reads := .crc (readCrcPort s) :: s.reads }

/-- One move of the host. -/
def hostMove (m : HostMove) (s : State) : Host.Outcome State Fault Refusal :=
  match m with
  | .buf bytes => hostBuf bytes s
  | .present m => hostPresent m s
  | .write offset b => hostWrite offset b s
  | .put n => hostPut n s
  | .readRes => hostReadRes s
  | .readCrc => hostReadCrc s

end Sys2Proof.Machine
end

