-- ==== Sys2Proof/Machine/Step.lean ====
section
/-! DEFINITION. One step: the next host action, a command word or a host move, executed atomically (20_memory.md R42).
With nothing presented the unit waits (70_reset_and_hazards.md R130; log 2). -/

namespace Sys2Proof.Machine

/-- One atomic action. A word that does not decode is refused before any other check (60_exceptions.md R112). -/
def step (s : State) : Host.Outcome State Fault Refusal :=
  match nextAction s with
  | none => .next s
  | some (.host m, t) => hostMove m t
  | some (.cmd w, t) =>
    match decode w with
    | .ok i => exec i t
    | .error (.illegalCommand v) => refuse (.illegalCommand v)

/-- The state whose very next step runs the given command word: the host presents it first (log 1). -/
def State.withFetchWord (s : State) (nbits w : Nat) : State :=
  s.withPending (.cmd (tableWord nbits w) :: s.pending)

end Sys2Proof.Machine
end

