-- ==== Sys2Proof/Machine/Assembler.lean ====
section
/-! DEFINITION. The assembler syntax of 30_encoding.md R58 and the pseudo-instructions and host directives of R59: one line
of text to the host actions it stands for. Text is a list of characters. -/

namespace Sys2Proof.Machine

/-- A lexical unit of a line. -/
inductive Token where
  | word (cs : List Char)
  | quoted (c : Char)
  | comma
  deriving DecidableEq, Repr

/-- The word read so far (reversed), if any, before the tokens that follow it. -/
def endWord (acc : List Char) (ts : List Token) : List Token :=
  if acc.isEmpty then ts else .word acc.reverse :: ts

/-- The tokens of a line; `;` starts a comment, a character in single quotes is one token (R58). -/
def tokenise (acc : List Char) : List Char → Option (List Token)
  | [] => some (endWord acc [])
  | '\'' :: c :: '\'' :: rest =>
    if acc.isEmpty then (tokenise [] rest).map (fun ts => .quoted c :: ts) else none
  | c :: rest =>
    if c = ';' then some (endWord acc [])
    else if c = ' ' ∨ c = '\t' then (tokenise [] rest).map (endWord acc)
    else if c = ',' then (tokenise [] rest).map (fun ts => endWord acc (.comma :: ts))
    else tokenise (c :: acc) rest

/-- The value of a digit. -/
def digitValue (c : Char) : Option Nat :=
  if '0' ≤ c ∧ c ≤ '9' then some (c.toNat - 48)
  else if 'a' ≤ c ∧ c ≤ 'f' then some (c.toNat - 87)
  else if 'A' ≤ c ∧ c ≤ 'F' then some (c.toNat - 55)
  else none

/-- The value of digits in a base, continuing from `acc`. -/
def digitsValue (base acc : Nat) : List Char → Option Nat
  | [] => some acc
  | c :: rest =>
    match digitValue c with
    | some d => if d < base then digitsValue base (acc * base + d) rest else none
    | none => none

/-- A number: decimal, hexadecimal with the `0x` prefix, or a quoted character's ASCII code (R58). -/
def numberValue : Token → Option Nat
  | .word ('0' :: 'x' :: d :: ds) => digitsValue 16 0 (d :: ds)
  | .word (d :: ds) => digitsValue 10 0 (d :: ds)
  | .word [] => none
  | .quoted c => if c.toNat < 128 then some c.toNat else none
  | .comma => none

/-- Numbers separated by commas. -/
def operandList : List Token → Option (List Nat)
  | [] => some []
  | [t] => (numberValue t).map (fun v => [v])
  | t :: .comma :: u :: rest =>
    match numberValue t, operandList (u :: rest) with
    | some v, some vs => some (v :: vs)
    | _, _ => none
  | _ => none

/-- A source line: a command, a pseudo-instruction, a host directive, or nothing (R58, R59). -/
inductive AsmLine where
  | blank
  | ckseed
  | ckbyte (v : Nat)
  | ckfin
  | ckhdr
  | ckchunk (n : Nat)
  | ckbytes (vs : List Nat)
  | cksum (vs : List Nat)
  | dotBuf (vs : List Nat)
  | dotPut (n : Nat)
  | dotRead
  deriving DecidableEq, Repr

/-- The line a keyword and its operands make, if any. -/
def lineOf (keyword : List Char) (operands : List Nat) : Option AsmLine :=
  if keyword = ['C', 'K', 'S', 'E', 'E', 'D'] then
    match operands with | [] => some .ckseed | _ => none
  else if keyword = ['C', 'K', 'B', 'Y', 'T', 'E'] then
    match operands with | [v] => some (.ckbyte v) | _ => none
  else if keyword = ['C', 'K', 'F', 'I', 'N'] then
    match operands with | [] => some .ckfin | _ => none
  else if keyword = ['C', 'K', 'H', 'D', 'R'] then
    match operands with | [] => some .ckhdr | _ => none
  else if keyword = ['C', 'K', 'C', 'H', 'U', 'N', 'K'] then
    match operands with | [n] => some (.ckchunk n) | _ => none
  else if keyword = ['C', 'K', 'B', 'Y', 'T', 'E', 'S'] then
    match operands with | [] => none | v :: vs => some (.ckbytes (v :: vs))
  else if keyword = ['C', 'K', 'S', 'U', 'M'] then some (.cksum operands)
  else if keyword = ['.', 'b', 'u', 'f'] then some (.dotBuf operands)
  else if keyword = ['.', 'p', 'u', 't'] then
    match operands with | [n] => some (.dotPut n) | _ => none
  else if keyword = ['.', 'r', 'e', 'a', 'd'] then
    match operands with | [] => some .dotRead | _ => none
  else none

/-- Read one line of text (R58). -/
def parseLine (text : List Char) : Option AsmLine :=
  match tokenise [] text with
  | some [] => some .blank
  | some (.word keyword :: rest) => (operandList rest).bind (lineOf keyword)
  | _ => none

/-- A byte operand: `0 <= v <= 255` (R58). -/
def byteOperand (v : Nat) : Option Byte := if v < 256 then some (BitVec.ofNat 8 v) else none

/-- Byte operands, in order. -/
def byteOperands : List Nat → Option (List Byte)
  | [] => some []
  | v :: vs =>
    match byteOperand v, byteOperands vs with
    | some b, some bs => some (b :: bs)
    | _, _ => none

/-- The commands of `CKBYTES` (R59). -/
def ckbytesWords (bs : List Byte) : List HostAction := bs.map (fun b => .cmd (encode (.ckbyte b)))

/-- The commands of `CKSUM`: `CKSEED`, the bytes, `CKFIN` (R59). -/
def cksumWords (bs : List Byte) : List HostAction :=
  .cmd (encode .ckseed) :: (ckbytesWords bs ++ [.cmd (encode .ckfin)])

/-- The host actions a line stands for; `none` where an operand is out of its range (R58, R59). -/
def assembleLine : AsmLine → Option (List HostAction)
  | .blank => some []
  | .ckseed => some [.cmd (encode .ckseed)]
  | .ckbyte v => (byteOperand v).map (fun b => [.cmd (encode (.ckbyte b))])
  | .ckfin => some [.cmd (encode .ckfin)]
  | .ckhdr => some [.cmd (encode .ckhdr)]
  | .ckchunk n => if n ≤ Config.chunkMax then some [.cmd (encode (.ckchunk n))] else none
  | .ckbytes vs => (byteOperands vs).map ckbytesWords
  | .cksum vs => (byteOperands vs).map cksumWords
  | .dotBuf vs => (byteOperands vs).map (fun bs => [.host (.buf bs)])
  | .dotPut n => some [.host (.put n)]
  | .dotRead => some [.host .readRes]

/-- The host actions of a text, line by line. -/
def assemble : List (List Char) → Option (List HostAction)
  | [] => some []
  | l :: ls =>
    match (parseLine l).bind assembleLine, assemble ls with
    | some xs, some ys => some (xs ++ ys)
    | _, _ => none

end Sys2Proof.Machine
end

