-- ==== Sys2Proof/Machine/Flags.lean ====
section
/-! DEFINITION. The unit has no flags and no command computes one (10_state.md R15). What decides whether a received
checksum matches stands outside the unit, a comparison of two 16-bit values (20_memory.md R41): it is here. -/

namespace Sys2Proof.Machine

/-- A frame whose checksummed part is `n` bytes long is checksum-consistent:
`LE16(frame[n], frame[n+1]) = checksum16(frame, n)` (R41). -/
def frameConsistent (frame : List Byte) (n : Nat) : Bool :=
  match frame[n]?, frame[n + 1]? with
  | some b0, some b1 => checksum16 frame n == some (le16 b0 b1)
  | _, _ => false

/-- The check of a received header frame: 19 bytes, consistent at 17 (R41). -/
def headerConsistent (frame : List Byte) : Bool :=
  frame.length == Config.hdrFrame && frameConsistent frame Config.hdrLen

/-- The check of a received chunk frame: consistent at its length less 2 (R41). -/
def chunkConsistent (frame : List Byte) : Bool :=
  decide (Config.ckBytes ≤ frame.length) && frameConsistent frame (frame.length - Config.ckBytes)

end Sys2Proof.Machine
end

