-- ==== Sys2Proof/Machine/Transfer.lean ====
section
/-! DEFINITION. The host contract: how the Transfer Engine uses the unit (20_memory.md R35 to R41; 60_exceptions.md R119 to
R121). Plain functions about the host: no step of the unit calls them. -/

namespace Sys2Proof.Machine

/-- The four bytes of the file length, little-endian (R37). -/
def le32Bytes (v : BitVec 32) : List Byte :=
  [v.extractLsb' 0 8, v.extractLsb' 8 8, v.extractLsb' 16 8, v.extractLsb' 24 8]

/-- The 17 bytes `CKHDR` reads: the name, zeros through offset 12, the length (R37; padding zeroed, D26, log 9). For names of
at most 12 bytes. -/
def headerInput (name : List Byte) (length : BitVec 32) : List Byte :=
  name ++ List.replicate (Config.nameField - name.length) 0 ++ le32Bytes length

/-- A frame: the checksummed bytes, then their checksum, little-endian (R37, R38). -/
def frameOf (bytes : List Byte) (checksum : Word) : List Byte := bytes ++ storedBytes checksum

/-- The host's actions for a header frame: fill offsets 0 to 16 of a 19-byte buffer, `CKHDR`, store at 17 and 18 (R37). DESIGN
CHOICE: offsets 17 and 18 hold 0 until the store (log 19). -/
def prepareHeader (name : List Byte) (length : BitVec 32) : List HostAction :=
  [.host (.buf (headerInput name length ++ [0, 0])), .cmd (encode .ckhdr), .host (.put Config.hdrLen)]

/-- The host's actions for a data chunk of the bytes actually read (R38). DESIGN CHOICE: the buffer presented has `M = n + 2`
bytes, the last two 0 until the store; 91_not_in_source.md N9 leaves its size open (log 19). -/
def prepareChunk (bytes : List Byte) : List HostAction :=
  [.host (.buf (bytes ++ [0, 0])), .cmd (encode (.ckchunk bytes.length)), .host (.put bytes.length)]

/-- Reads of up to 1024 bytes until a read returns none (R38), with `fuel` reads at most. DESIGN CHOICE: every read but the
last returns the full 1024 bytes (log 21). -/
def readChunks : Nat → List Byte → List (List Byte)
  | 0, _ => []
  | _ + 1, [] => []
  | fuel + 1, b :: rest =>
    (b :: rest).take Config.chunkMax :: readChunks fuel ((b :: rest).drop Config.chunkMax)

/-- The chunks of a source, in order (R38). -/
def sourceChunks (source : List Byte) : List (List Byte) := readChunks source.length source

/-- All the actions the host performs on the unit and its buffer in one transfer; a retry adds none (R40). DESIGN CHOICE: the
4-byte length field of a source of 2^32 bytes or more holds the length modulo 2^32 (log 20). -/
def prepareTransfer (name source : List Byte) : List HostAction :=
  prepareHeader name (BitVec.ofNat 32 source.length) ++ (sourceChunks source).flatMap prepareChunk

/-- The name a header frame declares: the bytes before the first NUL of the name buffer (R37). -/
def declaredName (frame : List Byte) : List Byte :=
  (frame.take Config.nameMax).takeWhile (fun b => b != 0)

/-- The length a header frame declares, little-endian at offsets 13 to 16 (R37). -/
def declaredLength (frame : List Byte) : Option (BitVec 32) :=
  match frame.drop Config.nameField with
  | b0 :: b1 :: b2 :: b3 :: _ =>
    some (b0.setWidth 32 ||| (b1.setWidth 32 <<< 8) ||| (b2.setWidth 32 <<< 16) ||| (b3.setWidth 32 <<< 24))
  | _ => none

/-- What an acknowledgment byte says (R119). -/
inductive Ack where
  | accepted
  | checksumMismatch
  | fatal (code : Byte)
  deriving DecidableEq, Repr

/-- `0` accepted, `1` checksum mismatch, any other value a fatal peer error carrying it (R119). -/
def ackOf (b : Byte) : Ack := if b = 0 then .accepted else if b = 1 then .checksumMismatch else .fatal b

/-- What the peer answers to a frame: `1` on inequality of the checksums (R121, R41). DESIGN CHOICE: `0` when they agree, where
R119 also allows a fatal code (log 22). -/
def peerAnswer (consistent : Bool) : Byte := if consistent then 0 else 1

/-- How sending one frame ends (R120). -/
inductive SendResult where
  | success
  | tooManyChecksumErrors
  | peerError (code : Byte)
  /-- The peer has sent no further acknowledgment. -/
  | waiting
  deriving DecidableEq, Repr

/-- Sending one frame, `retries` so far, with the peer's acknowledgments in order: the outcome and the frames written
(R120). Every write is the identical frame, and none issues a command to the unit (R40). -/
def sendFrame (frame : List Byte) : Nat → List Byte → SendResult × List (List Byte)
  | _, [] => (.waiting, [frame])
  | retries, a :: rest =>
    match ackOf a with
    | .accepted => (.success, [frame])
    | .fatal code => (.peerError code, [frame])
    | .checksumMismatch =>
      if Config.maxRetries < retries + 1 then (.tooManyChecksumErrors, [frame])
      else
        let later := sendFrame frame (retries + 1) rest
        (later.1, frame :: later.2)

end Sys2Proof.Machine
end

