-- ==== Sys2Proof/Safety.lean ====
section
/-! DEFINITION. What counts as a safe run: no command in it is refused and no host action faults (60_exceptions.md R110);
and what the host must have set up before a command (70_reset_and_hazards.md R132). -/

namespace Sys2Proof.Machine

/-- `k` steps of the machine, stopping at the first fault or refusal. -/
def runSteps (k : Nat) (s : State) : Host.Outcome State Fault Refusal := Host.Core.run Sys2Proof.core k s

/-- `k` steps from `s` all answer a next state. -/
def SafeRun (k : Nat) (s : State) : Prop := ∃ t, runSteps k s = .next t

/-- The invariant of the model's data: the buffer keeps its canonical form. -/
def State.inv (s : State) : Bool := s.buf.wf

/-- A command that is not refused once decoded: the conditions of X2 and X3 do not hold (R111). -/
def accepted (i : Instr) (s : State) : Bool :=
  match i with
  | .ckseed | .ckbyte _ | .ckfin => true
  | .ckhdr => decide (Config.hdrLen ≤ s.buf.size)
  | .ckchunk n => decide (n ≤ Config.chunkMax) && decide (n ≤ s.buf.size)

/-- The host has written every offset below `n`. -/
def rangeWritten (b : Buffer) (n : Nat) : Bool :=
  (List.range n).all (fun a => (lookupCell a b.cells).isSome)

/-- What the host must set up before a command (R132): accepted, and every byte of the range written, so that no free
value enters the result. -/
def prepared (i : Instr) (s : State) : Bool :=
  accepted i s &&
    match i with
    | .ckseed | .ckbyte _ | .ckfin => true
    | .ckhdr => rangeWritten s.buf Config.hdrLen
    | .ckchunk n => rangeWritten s.buf n

end Sys2Proof.Machine
end

