-- ==== Sys2Proof/Certificates/Slice0/Obligations.lean ====
section
/-! DEFINITION. The statements for the provers, from the spec's numbered rules. Where a clause rests on a choice of the model
the docstring names the log entry (notes/assumptions). -/

open Sys2Proof Sys2Proof.Machine

/-! ### The checksum function (40_checksum_function.md) -/

/-- R70 read bit by bit: bit 15 of the result is the feedback bit, and every lower bit is the next higher bit of the
register, with the feedback added at bits 3 and 10; and the rule's corner cases. -/
def Obligations.BitStepShiftsAndFeedsBack : Prop :=
  (∀ (c : Word) (d : Bool), (bitStep c d).getLsbD 15 = (c.getLsbD 0 ^^ d) ∧
    ∀ i, i < 15 → (bitStep c d).getLsbD i =
      (c.getLsbD (i + 1) ^^ ((c.getLsbD 0 ^^ d) && (i == 3 || i == 10)))) ∧
  bitStep 0x0000 false = 0x0000 ∧ bitStep 0x0001 true = 0x0000 ∧ bitStep 0x0000 true = 0x8408 ∧
  bitStep 0x0001 false = 0x8408 ∧ bitStep 0xFFFF false = 0xFBF7 ∧ bitStep 0xFFFF true = 0x7FFF ∧
  bitStep 0x8000 false = 0x4000 ∧ bitStep 0x8409 false = 0xC60C

/-- R71: eight bit steps, bit 0 of the byte first, bit 7 last; and the rule's examples. -/
def Obligations.ByteStepTakesBitZeroFirst : Prop :=
  (∀ (c : Word) (b : Byte), byteStep c b =
    bitStep (bitStep (bitStep (bitStep (bitStep (bitStep (bitStep (bitStep c (b.getLsbD 0)) (b.getLsbD 1))
      (b.getLsbD 2)) (b.getLsbD 3)) (b.getLsbD 4)) (b.getLsbD 5)) (b.getLsbD 6)) (b.getLsbD 7)) ∧
  byteStep 0xFFFF 0x00 = 0x0F87 ∧ byteStep 0xFFFF 0x01 = 0x1E0E ∧ byteStep 0xFFFF 0x80 = 0x8B8F ∧
  byteStep 0xFFFF 0xFF = 0x00FF

/-- R72: the byte-at-once form, the 256-entry table form, and the table's first and last entries. -/
def Obligations.ByteStepEqualsByteAtOnce : Prop :=
  (∀ (c : Word) (b : Byte), byteStep c b = shift8 (c ^^^ b.setWidth 16)) ∧
  (∀ (c : Word) (b : Byte), byteStep c b = (c >>> 8) ^^^ shift8 ((c ^^^ b.setWidth 16) &&& 0xFF)) ∧
  shift8 0 = 0x0000 ∧ shift8 1 = 0x1189 ∧ shift8 2 = 0x2312 ∧ shift8 3 = 0x329B ∧ shift8 255 = 0x0F78

/-- R79: a run may be computed in pieces; finalisation does not compose (the checksum of a concatenation is no function of
the two checksums). -/
def Obligations.RunComputedInPieces : Prop :=
  (∀ (c : Word) (xs ys : List Byte), runBytes c (xs ++ ys) = runBytes (runBytes c xs) ys) ∧
  (∀ xs ys : List Byte, checksum16 (xs ++ ys) (xs ++ ys).length =
    some (finalise (runBytes (runBytes 0xFFFF xs) ys))) ∧
  ¬ ∃ f : Option Word → Option Word → Option Word, ∀ xs ys : List Byte,
    checksum16 (xs ++ ys) (xs ++ ys).length = f (checksum16 xs xs.length) (checksum16 ys ys.length)

/-- R80: buffers that agree below `n` have the same checksum over `n`, whatever follows; and the rule's example. -/
def Obligations.ChecksumIgnoresBytesBeyondTheLength : Prop :=
  (∀ (buf buf' : List Byte) (n : Nat), n ≤ buf.length → n ≤ buf'.length → (∀ i, i < n → buf[i]? = buf'[i]?) →
    checksum16 buf n = checksum16 buf' n) ∧
  checksum16 [0x41, 0x42, 0x43] 2 = some 0xEF31 ∧ checksum16 [0x41, 0x42] 2 = some 0xEF31

/-- R81: linearity over GF(2) of the bit step, the run and the finalisation; `T` and `Fin` are bijections and `Fin` is its
own inverse. -/
def Obligations.ChecksumIsLinearOverGF2 : Prop :=
  (∀ (c : Word) (d : Bool), bitStep c d = stepZero c ^^^ (if d then 0x8408 else 0)) ∧
  (∀ c c' : Word, stepZero (c ^^^ c') = stepZero c ^^^ stepZero c') ∧ stepZero 0 = 0 ∧
  (∀ (c c' : Word) (xs ys : List Byte), xs.length = ys.length →
    runBytes (c ^^^ c') (List.zipWith (· ^^^ ·) xs ys) = runBytes c xs ^^^ runBytes c' ys) ∧
  (∀ c c' : Word, finalise c ^^^ finalise c' = bswap16 (c ^^^ c')) ∧
  (∀ c : Word, (stepZero c).getLsbD 15 = c.getLsbD 0) ∧
  (∀ (c : Word) (i : Nat), i < 15 →
    c.getLsbD (i + 1) = (stepZero c ^^^ (if c.getLsbD 0 then 0x8408 else 0)).getLsbD i) ∧
  Function.Bijective stepZero ∧ (∀ c : Word, finalise (finalise c) = c) ∧ Function.Bijective finalise

/-- R82: two buffers of one length that differ in exactly one bit have different checksums; buffers that differ in several
bits may have the same one. -/
def Obligations.SingleBitChangeChangesTheChecksum : Prop :=
  (∀ (xs : List Byte) (k j : Nat) (x : Byte), xs[k]? = some x → j < 8 →
    checksum16 (xs.set k (x ^^^ BitVec.twoPow 8 j)) xs.length ≠ checksum16 xs xs.length) ∧
  ∃ xs ys : List Byte, xs.length = ys.length ∧ xs ≠ ys ∧ checksum16 xs xs.length = checksum16 ys ys.length

/-- R83: two all-ones bytes take the seed to zero, zero bytes then keep it, and the seed makes leading zeros count. -/
def Obligations.ZeroRegisterIsKeptByZeroBytes : Prop :=
  runBytes 0xFFFF [0xFF, 0xFF] = 0x0000 ∧ checksum16 [0xFF, 0xFF] 2 = some 0xFFFF ∧ byteStep 0x0000 0x00 = 0x0000 ∧
  (∀ k : Nat, checksum16 ([0xFF, 0xFF] ++ List.replicate k 0x00) (2 + k) = some 0xFFFF) ∧
  byteStep 0xFFFF 0x00 = 0x0F87

/-- R74: bit `i` of the result is the inverse of bit `i + 8` (mod 16); the source's formula; inversion and exchange
commute; and the rule's examples. -/
def Obligations.FinaliseInvertsAndExchangesBytes : Prop :=
  (∀ (c : Word) (i : Nat), i < 16 → (finalise c).getLsbD i = !(c.getLsbD ((i + 8) % 16))) ∧
  (∀ c : Word, finalise c = ((~~~c) <<< 8) ||| (((~~~c) >>> 8) &&& 0xFF)) ∧
  (∀ c : Word, bswap16 (~~~c) = ~~~(bswap16 c)) ∧
  finalise 0xFFFF = 0x0000 ∧ finalise 0x0000 = 0xFFFF ∧ finalise 0x1234 = 0xCBED ∧ finalise 0x6F91 = 0x6E90 ∧
  finalise 0x0001 = 0xFEFF ∧ finalise 0x8000 = 0xFF7F ∧ finalise 0x00FF = 0x00FF

/-- R75: for `n >= 1` within the buffer, seed, consume the first `n` bytes, finalise; and the rule's example. For `n` beyond
the buffer the contract has no meaning: that the model answers `none` there is its own choice (log 23). -/
def Obligations.ChecksumSeedsConsumesFinalises : Prop :=
  (∀ (buf : List Byte) (n : Nat), 1 ≤ n → n ≤ buf.length →
    checksum16 buf n = some (finalise (runBytes 0xFFFF (buf.take n)))) ∧
  (∀ (buf : List Byte) (n : Nat), buf.length < n → checksum16 buf n = none) ∧
  checksum16 [0x31, 0x32, 0x33, 0x34, 0x35, 0x36, 0x37, 0x38, 0x39] 9 = some 0x6E90

/-- R76: the checksum of length 0 is `0x0000` for every buffer. -/
def Obligations.ZeroLengthChecksumIsZero : Prop :=
  ∀ buf : List Byte, checksum16 buf 0 = some 0x0000

/-- R77: the zero-length case is no exception in value, so one formula serves every length. -/
def Obligations.OneFormulaForEveryLength : Prop :=
  ∀ (buf : List Byte) (n : Nat), n ≤ buf.length →
    checksum16 buf n = some (finalise (runBytes 0xFFFF (buf.take n)))

/-- R84, the spec's own cross-check: the polynomial is `0x1021` reversed, the inverted register for "123456789" is the
published check value, and the inverted seed is zero. -/
def Obligations.PublishedCheckValue : Prop :=
  (0x1021 : Word).reverse = Config.poly ∧
  ~~~(runBytes 0xFFFF [0x31, 0x32, 0x33, 0x34, 0x35, 0x36, 0x37, 0x38, 0x39]) = (0x906E : Word) ∧
  ~~~Config.seed = (0x0000 : Word)

/-! ### Encoding (30_encoding.md) -/

/-- R51 to R53: decoding the word of a well-formed command gives the command back, at every operand value. -/
def Obligations.DecodeEncodeIsIdentity : Prop :=
  ∀ i : Instr, i.wellFormed = true → decode (encode i) = .ok i

/-- R51 to R53, the other direction: a word that decodes is the word of its command, which is well-formed. -/
def Obligations.EncodeDecodeIsIdentity : Prop :=
  ∀ (w : Word) (i : Instr), decode w = .ok i → encode i = w ∧ i.wellFormed = true

/-- R52: a word that matches a row decodes to that row's command, a word that matches none is illegal, and no word matches
two rows. -/
def Obligations.OpcodeMapDecidesDecoding : Prop :=
  (∀ (w : Word) (r : OpcodeRow), r ∈ opcodeMap → (w &&& r.mask) = r.pattern →
    ∃ i, decode w = .ok i ∧ i.mnemonic = r.mnemonic) ∧
  (∀ w : Word, (∀ r ∈ opcodeMap, (w &&& r.mask) ≠ r.pattern) → decode w = .error (.illegalCommand w)) ∧
  (∀ (w : Word) (r r' : OpcodeRow), r ∈ opcodeMap → r' ∈ opcodeMap → (w &&& r.mask) = r.pattern →
    (w &&& r'.mask) = r'.pattern → r = r')

/-- R56: exactly the listed words are illegal (`op` is `w / 4096`, `arg` is `w % 4096`, `arg[11:8]` is `arg / 256`), the
all-zero and the all-ones word among them. -/
def Obligations.IllegalWordsAreTheListedOnes : Prop :=
  (∀ w : Word, decode w = .error (.illegalCommand w) ↔
    (w.toNat / 4096 = 0 ∨ 6 ≤ w.toNat / 4096 ∨
      ((w.toNat / 4096 = 1 ∨ w.toNat / 4096 = 3 ∨ w.toNat / 4096 = 4) ∧ w.toNat % 4096 ≠ 0) ∨
      (w.toNat / 4096 = 2 ∧ w.toNat % 4096 / 256 ≠ 0))) ∧
  decode 0x0000 = .error (.illegalCommand 0x0000) ∧ decode 0xFFFF = .error (.illegalCommand 0xFFFF)

/-- R54: the legal words are the listed ranges, 1284 in all; the words that decode but are out of range are 3071 others;
so 61181 of the 65536 are illegal. -/
def Obligations.LegalWordsAreTheListedRanges : Prop :=
  (∀ w : Word, (∃ i, decode w = .ok i ∧ i.legal = true) ↔
    (w.toNat = 0x1000 ∨ (0x2000 ≤ w.toNat ∧ w.toNat < 0x2000 + 256) ∨ w.toNat = 0x3000 ∨ w.toNat = 0x4000 ∨
      (0x5000 ≤ w.toNat ∧ w.toNat < 0x5000 + 1025))) ∧
  (∀ w : Word, (∃ i, decode w = .ok i ∧ i.legal = false) ↔
    (0x5401 ≤ w.toNat ∧ w.toNat < 0x5401 + 3071)) ∧
  1 + 256 + 1 + 1 + 1025 = 1284 ∧ 65536 - 1284 - 3071 = 61181

/-- R60 and R52: words written out from the encodings decode to the commands they stand for, two reserved patterns are
illegal, and `0x5401` is refused for its length. -/
def Obligations.WrittenOutWordsDecode : Prop :=
  decode 0x1000 = .ok .ckseed ∧ decode 0x2041 = .ok (.ckbyte 0x41) ∧ decode 0x20FF = .ok (.ckbyte 0xFF) ∧
  decode 0x3000 = .ok .ckfin ∧ decode 0x4000 = .ok .ckhdr ∧ decode 0x51C4 = .ok (.ckchunk 452) ∧
  decode 0x5400 = .ok (.ckchunk 1024) ∧ decode 0x5000 = .ok (.ckchunk 0) ∧
  decode 0x5401 = .ok (.ckchunk 1025) ∧ (∀ s : State, exec (.ckchunk 1025) s = .refused (.lengthRange 1025)) ∧
  decode 0x2141 = .error (.illegalCommand 0x2141) ∧ decode 0x1001 = .error (.illegalCommand 0x1001)

/-- R58: the assembler's text for each command gives the word of the rule's table, with a decimal number, a hexadecimal number
or a quoted character as the operand, at every operand value; `;` starts a comment; lines give their words in order. That an
operand out of its range gives none is the model's choice (log 16). -/
def Obligations.AssemblerLinesGiveTheirWords : Prop :=
  (assembleLine .ckseed = some [.cmd 0x1000] ∧ assembleLine .ckfin = some [.cmd 0x3000] ∧
    assembleLine .ckhdr = some [.cmd 0x4000] ∧
    (∀ v, v ≤ 255 → assembleLine (.ckbyte v) = some [.cmd (BitVec.ofNat 16 (0x2000 + v))]) ∧
    (∀ v, 255 < v → assembleLine (.ckbyte v) = none) ∧
    (∀ n, n ≤ 1024 → assembleLine (.ckchunk n) = some [.cmd (BitVec.ofNat 16 (0x5000 + n))]) ∧
    (∀ n, 1024 < n → assembleLine (.ckchunk n) = none)) ∧
  (∀ comment : List Char, comment = [] ∨ (∃ cs, comment = ';' :: cs) ∨ (∃ cs, comment = ' ' :: ';' :: cs) →
    assemble [comment] = some [] ∧
    assemble [['C', 'K', 'S', 'E', 'E', 'D'] ++ comment] = some [.cmd 0x1000] ∧
    assemble [['C', 'K', 'F', 'I', 'N'] ++ comment] = some [.cmd 0x3000] ∧
    assemble [['C', 'K', 'H', 'D', 'R'] ++ comment] = some [.cmd 0x4000] ∧
    assemble [['C', 'K', 'B', 'Y', 'T', 'E', ' ', '\'', 'A', '\''] ++ comment] = some [.cmd 0x2041] ∧
    assemble [['C', 'K', 'B', 'Y', 'T', 'E', ' ', '0', 'x', 'F', 'F'] ++ comment] = some [.cmd 0x20FF] ∧
    assemble [['C', 'K', 'C', 'H', 'U', 'N', 'K', ' ', '4', '5', '2'] ++ comment] = some [.cmd 0x51C4]) ∧
  (∀ v, v ≤ 255 →
    assemble [['C', 'K', 'B', 'Y', 'T', 'E', ' '] ++ Nat.toDigits 10 v] = some [.cmd (BitVec.ofNat 16 (0x2000 + v))] ∧
    assemble [['C', 'K', 'B', 'Y', 'T', 'E', ' ', '0', 'x'] ++ Nat.toDigits 16 v] =
      some [.cmd (BitVec.ofNat 16 (0x2000 + v))]) ∧
  (∀ n, n ≤ 1024 →
    assemble [['C', 'K', 'C', 'H', 'U', 'N', 'K', ' '] ++ Nat.toDigits 10 n] = some [.cmd (BitVec.ofNat 16 (0x5000 + n))] ∧
    assemble [['C', 'K', 'C', 'H', 'U', 'N', 'K', ' ', '0', 'x'] ++ Nat.toDigits 16 n] =
      some [.cmd (BitVec.ofNat 16 (0x5000 + n))]) ∧
  (∀ c : Char, c.toNat < 128 →
    assemble [['C', 'K', 'B', 'Y', 'T', 'E', ' ', '\'', c, '\'']] = some [.cmd (BitVec.ofNat 16 (0x2000 + c.toNat))] ∧
    assemble [['C', 'K', 'C', 'H', 'U', 'N', 'K', ' ', '\'', c, '\'']] =
      some [.cmd (BitVec.ofNat 16 (0x5000 + c.toNat))]) ∧
  assemble [['C', 'K', 'B', 'Y', 'T', 'E', ' ', '2', '5', '6']] = none ∧
  assemble [['C', 'K', 'C', 'H', 'U', 'N', 'K', ' ', '1', '0', '2', '5']] = none ∧
  (∀ (ls ls' : List (List Char)) (xs ys : List HostAction), assemble ls = some xs → assemble ls' = some ys →
    assemble (ls ++ ls') = some (xs ++ ys))

/-- R59: the pseudo-instructions expand to the commands the rule lists, and the directives are the host's moves; one text of
each form. -/
def Obligations.PseudoInstructionsExpand : Prop :=
  (∀ bs : List Byte, bs ≠ [] → assembleLine (.ckbytes (bs.map BitVec.toNat)) =
    some (bs.map (fun b => .cmd (0x2000 ||| b.setWidth 16)))) ∧
  (∀ bs : List Byte, assembleLine (.cksum (bs.map BitVec.toNat)) =
    some (.cmd 0x1000 :: (bs.map (fun b => .cmd (0x2000 ||| b.setWidth 16)) ++ [.cmd 0x3000]))) ∧
  (∀ bs : List Byte, assembleLine (.dotBuf (bs.map BitVec.toNat)) = some [.host (.buf bs)]) ∧
  (∀ n, assembleLine (.dotPut n) = some [.host (.put n)]) ∧ assembleLine .dotRead = some [.host .readRes] ∧
  assemble [['C', 'K', 'B', 'Y', 'T', 'E', 'S', ' ', '\'', '1', '\'', ',', ' ', '0', 'x', 'F', 'F', ',', ' ', '7']] =
    some [.cmd 0x2031, .cmd 0x20FF, .cmd 0x2007] ∧
  assemble [['C', 'K', 'S', 'U', 'M', ' ', '\'', 'A', '\'', ',', ' ', '0']] =
    some [.cmd 0x1000, .cmd 0x2041, .cmd 0x2000, .cmd 0x3000] ∧
  assemble [['.', 'b', 'u', 'f', ' ', '0', 'x', '4', '1', ',', ' ', '2', '5', '5']] = some [.host (.buf [0x41, 0xFF])] ∧
  assemble [['.', 'p', 'u', 't', ' ', '1', '7']] = some [.host (.put 17)] ∧
  assemble [['.', 'r', 'e', 'a', 'd']] = some [.host .readRes]

/-! ### The step (20_memory.md R42, 60_exceptions.md R110 to R113) -/

/-- When the next host action is a command word that decodes, the step is the command's meaning on the state with the
word taken. That host actions wait in a list is the model's choice (log 1). -/
def Obligations.StepRunsTheDecodedCommand : Prop :=
  ∀ (s : State) (w : Word) (rest : List HostAction) (i : Instr), s.pending = .cmd w :: rest → decode w = .ok i →
    step s = exec i (s.withPending rest)

/-- When the next host action is a move of the host, the step performs it on the state with the action taken (log 1). -/
def Obligations.StepPerformsTheHostMove : Prop :=
  ∀ (s : State) (m : HostMove) (rest : List HostAction), s.pending = .host m :: rest →
    step s = hostMove m (s.withPending rest)

/-- With nothing presented the unit waits. That waiting is a step that changes nothing is the model's choice (log 2). -/
def Obligations.StepWaitsForTheHost : Prop :=
  ∀ s : State, s.pending = [] → step s = .next s

/-- R111, R112 (the reasons X1 to X3 and their order, decision D15): a presented command word is refused exactly under the
conditions listed, with the reason and the information listed, whatever the rest of the state is. -/
def Obligations.CommandRefusedExactlyAsListed : Prop :=
  ∀ (s : State) (w : Word) (rest : List HostAction) (r : Refusal), s.pending = .cmd w :: rest →
    (step s = .refused r ↔
      (decode w = .error (.illegalCommand w) ∧ r = .illegalCommand w) ∨
      (∃ n, decode w = .ok (.ckchunk n) ∧ 1024 < n ∧ r = .lengthRange n) ∨
      (∃ n, decode w = .ok (.ckchunk n) ∧ n ≤ 1024 ∧ s.buf.size < n ∧ r = .bufferShort n s.buf.size) ∨
      (decode w = .ok .ckhdr ∧ s.buf.size < 17 ∧ r = .bufferShort 17 s.buf.size))

/-- R113: a presented command either completes or is refused, and the unit never faults; a decoded command completes exactly
when it is accepted (`accepted`: neither X2 nor X3 of R111 applies). -/
def Obligations.CommandCompletesOrIsRefused : Prop :=
  (∀ (s : State) (w : Word) (rest : List HostAction), s.pending = .cmd w :: rest →
    (∃ t, step s = .next t ∧ t.pending = rest) ∨ ∃ r, step s = .refused r) ∧
  (∀ (s : State) (i : Instr), accepted i s = true ↔ ∃ t, exec i s = .next t)

/-- R110 to R112 (decisions D10, D15, D30): once a run has come to a command word that is illegal, or whose command is not
accepted, the run is that refusal at every later length, whatever the host presents behind the word. That the mark of a
refused run is the outcome itself is the model's rendering (log 15). -/
def Obligations.RefusedRunStaysRefused : Prop :=
  ∀ (s t : State) (w : Word) (rest : List HostAction) (j k : Nat), runSteps j s = .next t → t.pending = .cmd w :: rest →
    (decode w = .error (.illegalCommand w) → runSteps (j + (k + 1)) s = .refused (.illegalCommand w)) ∧
    (∀ n, decode w = .ok (.ckchunk n) → 1024 < n → runSteps (j + (k + 1)) s = .refused (.lengthRange n)) ∧
    (∀ n, decode w = .ok (.ckchunk n) → n ≤ 1024 → t.buf.size < n →
      runSteps (j + (k + 1)) s = .refused (.bufferShort n t.buf.size)) ∧
    (decode w = .ok .ckhdr → t.buf.size < 17 → runSteps (j + (k + 1)) s = .refused (.bufferShort 17 t.buf.size)) ∧
    (∀ i, decode w = .ok i → accepted i t = false → ∃ r, runSteps (j + (k + 1)) s = .refused r)

/-! ### The commands (41_streaming_ops.md, 42_block_ops.md) -/

/-- R90: `CKSEED` sets `CRC` to the seed and changes nothing else; its encoding; issued twice it is as once; right after
reset it changes nothing; and the rule's example. That `CRC` holds the seed at reset is a choice (the spec's decision D14,
log 13), and the clause about reset rests on it. -/
def Obligations.CkseedSetsTheSeed : Prop :=
  encode .ckseed = 0x1000 ∧ decode 0x1000 = .ok .ckseed ∧
  (∀ w : Word, 0x1000 < w.toNat → w.toNat < 0x2000 → decode w = .error (.illegalCommand w)) ∧
  (∀ s : State, exec .ckseed s = .next { s with crc := 0xFFFF }) ∧
  (∀ s : State, exec .ckseed { s with crc := 0xFFFF } = .next { s with crc := 0xFFFF }) ∧
  exec .ckseed State.reset = .next State.reset ∧
  (∀ s : State, exec .ckseed { s with crc := 0x1234, res := 0xABCD } =
    .next { s with crc := 0xFFFF, res := 0xABCD })

/-- R91: `CKBYTE imm8` takes one byte step and changes nothing else; its encoding; for a fixed `CRC` the step is injective
in the byte (the rule's derived clause, `Shift8` being a bijection), no byte is a no-operation from every state; and the
rule's example. A zero byte keeps the register `0x0000`, as the rule says, and one more, `0xF80F`, which the rule's
sentence overlooks (log 12). -/
def Obligations.CkbyteTakesOneByteStep : Prop :=
  (∀ b : Byte, encode (.ckbyte b) = 0x2000 ||| b.setWidth 16) ∧
  (∀ w : Word, 0x2100 ≤ w.toNat → w.toNat < 0x3000 → decode w = .error (.illegalCommand w)) ∧
  (∀ (s : State) (b : Byte), exec (.ckbyte b) s = .next { s with crc := byteStep s.crc b }) ∧
  (∀ (c : Word) (b b' : Byte), byteStep c b = byteStep c b' → b = b') ∧ Function.Bijective shift8 ∧
  (∀ b : Byte, ∃ c : Word, byteStep c b ≠ c) ∧ (∀ c : Word, byteStep c 0x00 = c ↔ c = 0x0000 ∨ c = 0xF80F) ∧
  (∀ s : State, exec (.ckbyte 0x41) { s with crc := 0xFFFF } = .next { s with crc := 0x5C0A })

/-- R91's sentence that a zero byte changes every register but `0x0000`, as the rule has it. It is expected to FAIL: the
byte step of R71 also keeps `0xF80F` (log 12). -/
def Obligations.ZeroByteChangesEveryNonzeroRegister : Prop :=
  ∀ c : Word, c ≠ 0x0000 → byteStep c 0x00 ≠ c

/-- R92: `CKFIN` sets all of `RES` to `Fin(CRC)` and changes nothing else the spec names (`CRC` unchanged: decision D7);
from the seed the result is `0x0000`; issued twice it writes the same value; and the rule's example. That `RES` is
specified from then on is the model's own field (log 4). -/
def Obligations.CkfinFinalisesTheRegister : Prop :=
  encode .ckfin = 0x3000 ∧ decode 0x3000 = .ok .ckfin ∧
  (∀ s : State, exec .ckfin s = .next { s with res := finalise s.crc, resSpecified := true }) ∧
  (∀ s : State, exec .ckfin { s with crc := 0xFFFF } =
    .next { s with crc := 0xFFFF, res := 0x0000, resSpecified := true }) ∧
  (∀ s t : State, exec .ckfin s = .next t → exec .ckfin t = .next t) ∧
  (∀ s : State, exec .ckfin { s with crc := 0x6F91 } =
    .next { s with crc := 0x6F91, res := 0x6E90, resSpecified := true })

/-- R100: with `M >= 17`, `CKHDR` leaves in `CRC` the run of the 17 bytes at offsets 0 to 16 from the seed, in `RES` their
checksum, and changes nothing else; with `M < 17` it is refused; in effect it is `CKCHUNK 17`; the previous `CRC` is no
input; its encoding; and the rule's example. That `RES` is specified from then on is the model's own field (log 4), and what
an offset the host never wrote reads as is the model's free value (log 5). -/
def Obligations.CkhdrChecksumsTheHeader : Prop :=
  encode .ckhdr = 0x4000 ∧ decode 0x4000 = .ok .ckhdr ∧
  (∀ (s : State) (xs : List Byte), xs.length = 17 → (∀ i, i < 17 → memRead s.buf i = xs[i]?) →
    exec .ckhdr s = .next { s with crc := runBytes 0xFFFF xs, res := finalise (runBytes 0xFFFF xs), resSpecified := true } ∧
    checksum16 xs 17 = some (finalise (runBytes 0xFFFF xs))) ∧
  (∀ s : State, 17 ≤ s.buf.size → ∃ xs : List Byte, xs.length = 17 ∧ ∀ i, i < 17 → memRead s.buf i = xs[i]?) ∧
  (∀ s : State, s.buf.size < 17 → exec .ckhdr s = .refused (.bufferShort 17 s.buf.size)) ∧
  (∀ s : State, 17 ≤ s.buf.size → exec .ckhdr s = exec (.ckchunk 17) s) ∧
  (∀ (s : State) (c : Word), 17 ≤ s.buf.size → exec .ckhdr { s with crc := c } = exec .ckhdr s) ∧
  (∀ s : State, (∀ i, i < 17 → memRead s.buf i =
      ([0x41, 0x2E, 0x54, 0x58, 0x54, 0, 0, 0, 0, 0, 0, 0, 0, 0x64, 0, 0, 0] : List Byte)[i]?) →
    exec .ckhdr s = .next { s with crc := 0x8CF7, res := 0x0873, resSpecified := true }) ∧
  storedBytes 0x0873 = [0x73, 0x08]

/-- R101: for `n <= 1024` and `n <= M`, `CKCHUNK n` leaves in `CRC` the run of the bytes at offsets 0 to `n - 1` from the
seed, in `RES` their checksum (`0xFFFF` and `0x0000` for `n = 0`, with any buffer), and changes nothing else; its two
refusals in their order; its encoding; and the rule's example. That `RES` is specified from then on is the model's own field
(log 4), and what an offset the host never wrote reads as is the model's free value (log 5). -/
def Obligations.CkchunkChecksumsThePrefix : Prop :=
  (∀ n, n < 4096 → encode (.ckchunk n) = 0x5000 ||| BitVec.ofNat 16 n) ∧
  (∀ (s : State) (n : Nat) (xs : List Byte), n ≤ 1024 → n ≤ s.buf.size → xs.length = n →
    (∀ i, i < n → memRead s.buf i = xs[i]?) →
    exec (.ckchunk n) s =
      .next { s with crc := runBytes 0xFFFF xs, res := finalise (runBytes 0xFFFF xs), resSpecified := true } ∧
    checksum16 xs n = some (finalise (runBytes 0xFFFF xs))) ∧
  (∀ (s : State) (n : Nat), n ≤ s.buf.size →
    ∃ xs : List Byte, xs.length = n ∧ ∀ i, i < n → memRead s.buf i = xs[i]?) ∧
  (∀ s : State, exec (.ckchunk 0) s = .next { s with crc := 0xFFFF, res := 0x0000, resSpecified := true }) ∧
  (∀ (s : State) (n : Nat), 1024 < n → exec (.ckchunk n) s = .refused (.lengthRange n)) ∧
  (∀ (s : State) (n : Nat), n ≤ 1024 → s.buf.size < n →
    exec (.ckchunk n) s = .refused (.bufferShort n s.buf.size)) ∧
  (∀ (s : State) (n : Nat) (c : Word), n ≤ 1024 → n ≤ s.buf.size →
    exec (.ckchunk n) { s with crc := c } = exec (.ckchunk n) s) ∧
  (∀ s : State, s.buf.size = 3 → memRead s.buf 0 = some 0x41 → memRead s.buf 1 = some 0x42 →
    memRead s.buf 2 = some 0x43 →
    exec (.ckchunk 2) s = .next { s with crc := 0xCE10, res := 0xEF31, resSpecified := true })

/-- The frame of the streaming commands (R20's first three rows): `CKSEED` and `CKBYTE` may change `CRC` only, `CKFIN` may
change `RES` only; every byte of the buffer reads as before, `M` is kept, and so is everything of the host's. -/
def Obligations.StreamingCommandsFrame : Prop :=
  ∀ (s t : State) (i : Instr), (i = .ckseed ∨ (∃ b, i = .ckbyte b) ∨ i = .ckfin) → exec i s = .next t →
    (i ≠ .ckfin → t.res = s.res ∧ t.resSpecified = s.resSpecified) ∧ (i = .ckfin → t.crc = s.crc) ∧
    (∀ a, memRead t.buf a = memRead s.buf a) ∧ t.buf.size = s.buf.size ∧ t.pending = s.pending ∧
    t.reads = s.reads ∧ t.draws = s.draws

/-- The frame of the block commands (R20's last three rows; R34): they change `CRC` and `RES` only; every byte of the buffer
reads as before, `M` is kept, and so is everything of the host's. -/
def Obligations.BlockCommandsFrame : Prop :=
  ∀ (s t : State) (i : Instr), (i = .ckhdr ∨ ∃ n, i = .ckchunk n) → exec i s = .next t →
    (∀ a, memRead t.buf a = memRead s.buf a) ∧ t.buf.size = s.buf.size ∧ t.pending = s.pending ∧
    t.reads = s.reads ∧ t.draws = s.draws

/-- R4: the result of a block command depends on nothing but the length and the bytes of the range: two states that agree
on them, and on nothing else, are left with the same `CRC` and `RES`. -/
def Obligations.ResultDependsOnlyOnTheRange : Prop :=
  (∀ (s s' : State) (n : Nat), n ≤ 1024 → n ≤ s.buf.size → n ≤ s'.buf.size →
    (∀ i, i < n → memRead s.buf i = memRead s'.buf i) →
    ∃ t t', exec (.ckchunk n) s = .next t ∧ exec (.ckchunk n) s' = .next t' ∧ t.crc = t'.crc ∧ t.res = t'.res) ∧
  (∀ s s' : State, 17 ≤ s.buf.size → 17 ≤ s'.buf.size → (∀ i, i < 17 → memRead s.buf i = memRead s'.buf i) →
    ∃ t t', exec .ckhdr s = .next t ∧ exec .ckhdr s' = .next t' ∧ t.crc = t'.crc ∧ t.res = t'.res)

/-- R93: from any state, `CKSEED`, one `CKBYTE` per byte and `CKFIN` end with `CRC` the run of the bytes from the seed and
`RES` their checksum; the leading `CKSEED` may be left out from the reset state, since `CRC` is the seed there (a choice, the
spec's decision D14, log 13). That `RES` is specified from then on is the model's own field (log 4). -/
def Obligations.StreamComputesTheChecksum : Prop :=
  (∀ (s : State) (xs : List Byte) (rest : List HostAction),
    s.pending = .cmd 0x1000 :: (xs.map (fun b => .cmd (0x2000 ||| b.setWidth 16)) ++ .cmd 0x3000 :: rest) →
    ∃ v, checksum16 xs xs.length = some v ∧ runSteps (xs.length + 2) s =
      .next { s with crc := runBytes 0xFFFF xs, res := v, resSpecified := true, pending := rest }) ∧
  (∀ (xs : List Byte) (rest : List HostAction),
    ∃ v, checksum16 xs xs.length = some v ∧ runSteps (xs.length + 1)
      (State.reset.withPending (xs.map (fun b => .cmd (0x2000 ||| b.setWidth 16)) ++ .cmd 0x3000 :: rest)) =
      .next { State.reset with crc := runBytes 0xFFFF xs, res := v, resSpecified := true, pending := rest })

/-- R102: a block command leaves the machine exactly where the stream of the same bytes leaves it, and `CKHDR` where
`CKCHUNK 17` does. -/
def Obligations.BlockCommandEqualsStream : Prop :=
  (∀ (s : State) (n : Nat) (xs : List Byte) (rest : List HostAction), n ≤ 1024 → n ≤ s.buf.size → xs.length = n →
    (∀ i, i < n → memRead s.buf i = xs[i]?) →
    runSteps 1 (s.withPending (.cmd (encode (.ckchunk n)) :: rest)) =
      runSteps (n + 2) (s.withPending
        (.cmd 0x1000 :: (xs.map (fun b => .cmd (0x2000 ||| b.setWidth 16)) ++ .cmd 0x3000 :: rest)))) ∧
  (∀ (s : State) (rest : List HostAction), 17 ≤ s.buf.size →
    runSteps 1 (s.withPending (.cmd 0x4000 :: rest)) =
      runSteps 1 (s.withPending (.cmd 0x5011 :: rest)))

/-! ### Whole-machine rules -/

/-- The buffer's canonical form is kept by every step (log 5). -/
def Obligations.EveryStepKeepsTheBufferCanonical : Prop :=
  ∀ s t : State, s.inv = true → step s = .next t → t.inv = true

/-- The buffer's canonical form holds at reset. The form is the model's choice (log 5), and so is that no buffer has been
presented at reset (log 6): R19 gives `BUF` no reset value. -/
def Obligations.ResetBufferIsCanonical : Prop := State.reset.inv = true

/-- R34: no command writes the buffer: whatever word the host presents, a step that completes leaves every byte and `M` as
they were. -/
def Obligations.CommandsNeverWriteTheBuffer : Prop :=
  ∀ (s t : State) (w : Word) (rest : List HostAction), s.pending = .cmd w :: rest → step s = .next t →
    t.buf.size = s.buf.size ∧ (∀ a, memRead t.buf a = memRead s.buf a) ∧ t.buf = s.buf

/-- R10: a step that changes `CRC` runs `CKSEED`, `CKBYTE`, `CKHDR` or `CKCHUNK`; no `CKFIN` and no host move does. -/
def Obligations.OnlyFourCommandsWriteCrc : Prop :=
  ∀ s t : State, step s = .next t → t.crc ≠ s.crc →
    ∃ w rest i, s.pending = .cmd w :: rest ∧ decode w = .ok i ∧
      (i = .ckseed ∨ (∃ b, i = .ckbyte b) ∨ i = .ckhdr ∨ ∃ n, i = .ckchunk n)

/-- R11, R135: a step that changes `RES`, or makes it specified, runs `CKFIN`, `CKHDR` or `CKCHUNK`; reading `res`, storing
it and the other commands leave it. -/
def Obligations.OnlyFinalisersWriteRes : Prop :=
  ∀ s t : State, step s = .next t → (t.res ≠ s.res ∨ t.resSpecified ≠ s.resSpecified) →
    ∃ w rest i, s.pending = .cmd w :: rest ∧ decode w = .ok i ∧ (i = .ckfin ∨ i = .ckhdr ∨ ∃ n, i = .ckchunk n)

/-- Once specified, `RES` stays specified within a run (R11: unspecified only before the first finalising command). -/
def Obligations.SpecifiedResStaysSpecified : Prop :=
  ∀ s t : State, s.resSpecified = true → step s = .next t → t.resSpecified = true

/-! ### Reset and the ports (10_state.md, 70_reset_and_hazards.md) -/

/-- R19, R130 (`CRC` the seed by the spec's decision D14, log 13): after reset `CRC` is the seed, `RES` is unspecified and no
command is in progress; a reset that starts a new run leaves `BUF` alone. The model's own are: `resSpecified` for "unspecified"
(log 4), an empty `pending` for "no command in progress" (log 1), and that a new run keeps the host's `pending` and `reads`
(logs 1 and 15). -/
def Obligations.ResetSeedsCrcAndLeavesTheBuffer : Prop :=
  State.reset.crc = 0xFFFF ∧ State.reset.resSpecified = false ∧ State.reset.pending = [] ∧
  ∀ s : State, s.restart.crc = 0xFFFF ∧ s.restart.resSpecified = false ∧ s.restart.buf = s.buf ∧
    s.restart.pending = s.pending ∧ s.restart.reads = s.reads

/-- R13: reading a port changes neither register nor buffer; the host gets `CRC`, or `RES` where it is specified (log 4). -/
def Obligations.PortReadsChangeNothing : Prop :=
  (∀ s : State, hostMove .readCrc s = .next { s with reads := .crc s.crc :: s.reads }) ∧
  (∀ s : State, s.resSpecified = true → hostMove .readRes s = .next { s with reads := .res s.res :: s.reads }) ∧
  (∀ s : State, ∃ t, hostMove .readRes s = .next t ∧ t.crc = s.crc ∧ t.res = s.res ∧
    t.resSpecified = s.resSpecified ∧ t.buf = s.buf ∧ t.pending = s.pending)

/-- R42: a `res` read returns the value the latest finalising command wrote, be it `CKFIN`, `CKHDR` or `CKCHUNK`, whatever
`CKSEED`, `CKBYTE` and moves of the host stand between the two; and a run of such actions comes as far as the read (a host
write or `.put` among them may stop it, log 8). That the read is then no free draw is the model's rendering (log 4). -/
def Obligations.ResReadReturnsTheLatestResult : Prop :=
  ∀ (s : State) (w v : Word) (i : Instr) (between rest : List HostAction),
    s.pending = .cmd w :: (between ++ .host .readRes :: rest) → decode w = .ok i →
    ((i = .ckfin ∧ v = finalise s.crc) ∨
      ∃ (n : Nat) (xs : List Byte), (i = .ckchunk n ∨ (i = .ckhdr ∧ n = 17)) ∧ n ≤ 1024 ∧ n ≤ s.buf.size ∧
        xs.length = n ∧ (∀ a, a < n → memRead s.buf a = xs[a]?) ∧ checksum16 xs n = some v) →
    (∀ x ∈ between, (∃ m, x = .host m) ∨ x = .cmd 0x1000 ∨ ∃ b : Byte, x = .cmd (0x2000 ||| b.setWidth 16)) →
    ((∀ x ∈ between, (∀ a b, x ≠ .host (.write a b)) ∧ ∀ n, x ≠ .host (.put n)) →
      ∃ t, runSteps (between.length + 1) s = .next t) ∧
    ∀ t, runSteps (between.length + 1) s = .next t → t.res = v ∧
      runSteps (between.length + 2) s = .next { t with reads := .res v :: t.reads, pending := rest }

/-- R11, U1: while `RES` is unspecified each read is a free draw of its own, whatever the draw counter holds; the form of
the draw is the model's (log 4). -/
def Obligations.UnspecifiedResReadsAreDraws : Prop :=
  ∀ (s : State) (rest : List HostAction), s.resSpecified = false →
    s.pending = .host .readRes :: .host .readRes :: rest →
    ∃ t, runSteps 2 s = .next t ∧
      t.reads = .res (Config.freeRes (s.draws + 1)) :: .res (Config.freeRes s.draws) :: s.reads ∧
      t.crc = s.crc ∧ t.resSpecified = false ∧ t.buf = s.buf ∧ t.pending = rest

/-! ### The host's writes and the frames (20_memory.md, 60_exceptions.md section 6) -/

/-- R12: a host write at an existing offset changes that byte only; at any other offset the run stops (the model's choice,
log 8). -/
def Obligations.HostWriteChangesOneByte : Prop :=
  (∀ (s : State) (a : Nat) (b : Byte), a < s.buf.size → ∃ t, hostMove (.write a b) s = .next t ∧
    memRead t.buf a = some b ∧ (∀ a', a' ≠ a → memRead t.buf a' = memRead s.buf a') ∧ t.buf.size = s.buf.size ∧
    t.crc = s.crc ∧ t.res = s.res ∧ t.resSpecified = s.resSpecified ∧ t.pending = s.pending) ∧
  (∀ (s : State) (a : Nat) (b : Byte), s.buf.size ≤ a →
    hostMove (.write a b) s = .fault (.hostWriteOutside a s.buf.size))

/-- R59 `.buf`: `M` is the number of bytes listed and they are the buffer; nothing else the spec names changes. -/
def Obligations.DotBufPresentsItsBytes : Prop :=
  ∀ (s : State) (bs : List Byte), ∃ t, hostMove (.buf bs) s = .next t ∧ t.buf.size = bs.length ∧
    (∀ a, memRead t.buf a = bs[a]?) ∧ t.crc = s.crc ∧ t.res = s.res ∧ t.resSpecified = s.resSpecified ∧
    t.pending = s.pending ∧ t.reads = s.reads

/-- R132, U3: in a buffer the host has presented and not written, every existing byte is a free value, and a block command
over it still runs, on those values; a command whose range the host has written whole (`prepared`) reads none of them,
whatever draw the buffer has. The form of the free value is the model's (log 5). -/
def Obligations.UnwrittenBytesAreFreeValues : Prop :=
  (∀ (s : State) (m : Nat), ∃ t, hostMove (.present m) s = .next t ∧ t.buf.size = m ∧
    (∀ a, a < m → memRead t.buf a = some (Config.freeByte s.draws a)) ∧ t.crc = s.crc ∧ t.res = s.res ∧
    ∀ n, n ≤ 1024 → n ≤ m → ∃ u, exec (.ckchunk n) t = .next u ∧
      u.crc = runBytes 0xFFFF ((List.range n).map (Config.freeByte s.draws))) ∧
  (∀ (s : State) (i : Instr) (d : Nat), prepared i s = true →
    ∃ t u, exec i s = .next t ∧ exec i { s with buf := { s.buf with draw := d } } = .next u ∧
      u.crc = t.crc ∧ u.res = t.res)

/-- R35: with `M >= n + 2` and a specified `RES`, the host's store puts `RES[7:0]` at `n` and `RES[15:8]` at `n + 1`, every
other byte and both registers unchanged; while `RES` is unspecified the store completes too, each byte from a free draw of its
own (R11, U1; the form of the draws is the model's choice, log 4); the two bytes read back little-endian are `RES`; the header's
length is stored little-endian too. -/
def Obligations.ResultIsStoredLittleEndian : Prop :=
  (∀ (s : State) (n : Nat), n + 2 ≤ s.buf.size → s.resSpecified = true → ∃ t, hostMove (.put n) s = .next t ∧
    memRead t.buf n = some (s.res.extractLsb' 0 8) ∧ memRead t.buf (n + 1) = some (s.res.extractLsb' 8 8) ∧
    (∀ a, a ≠ n → a ≠ n + 1 → memRead t.buf a = memRead s.buf a) ∧ t.buf.size = s.buf.size ∧
    t.crc = s.crc ∧ t.res = s.res ∧ t.resSpecified = true ∧ t.pending = s.pending ∧ t.reads = s.reads) ∧
  (∀ (s : State) (n : Nat), n + 2 ≤ s.buf.size → s.resSpecified = false → ∃ t, hostMove (.put n) s = .next t ∧
    memRead t.buf n = some ((Config.freeRes s.draws).extractLsb' 0 8) ∧
    memRead t.buf (n + 1) = some ((Config.freeRes (s.draws + 1)).extractLsb' 8 8) ∧
    (∀ a, a ≠ n → a ≠ n + 1 → memRead t.buf a = memRead s.buf a) ∧ t.buf.size = s.buf.size ∧
    t.crc = s.crc ∧ t.res = s.res ∧ t.resSpecified = false ∧ t.pending = s.pending ∧ t.reads = s.reads) ∧
  (∀ v : Word, le16 (v.extractLsb' 0 8) (v.extractLsb' 8 8) = v) ∧
  (∀ v : BitVec 32, le32Bytes v = [v.extractLsb' 0 8, v.extractLsb' 8 8, v.extractLsb' 16 8, v.extractLsb' 24 8])

/-- R59 `.put n` requires `M >= n + 2`; where it does not hold the run stops (the model's choice, log 8). -/
def Obligations.PutOutsideTheBufferFaults : Prop :=
  ∀ (s : State) (n : Nat), s.buf.size < n + 2 → hostMove (.put n) s = .fault (.putOutside n s.buf.size)

/-- R36: the two checksum bytes of a frame are the inverted running register, high byte first; and the rule's example. -/
def Obligations.FrameCarriesTheInvertedRegister : Prop :=
  (∀ c : Word, storedBytes (finalise c) = [(~~~c).extractLsb' 8 8, (~~~c).extractLsb' 0 8]) ∧
  runBytes 0xFFFF [0x31, 0x32, 0x33, 0x34, 0x35, 0x36, 0x37, 0x38, 0x39] = 0x6F91 ∧
  ~~~(0x6F91 : Word) = 0x906E ∧ finalise 0x6F91 = 0x6E90 ∧ storedBytes 0x6E90 = [0x90, 0x6E]

/-- R137: after a block command, storing its result behind the bytes it read and issuing it again gives the same `CRC` and
`RES`, for `CKCHUNK` and `CKHDR`; asking for `n + 2` bytes instead gives a different `RES`. -/
def Obligations.RecomputationAfterTheStore : Prop :=
  (∀ (s : State) (n : Nat), n ≤ 1024 → n + 2 ≤ s.buf.size → ∃ t u,
    runSteps 1 (s.withPending
      [.cmd (encode (.ckchunk n)), .host (.put n), .cmd (encode (.ckchunk n))]) = .next t ∧
    runSteps 2 t = .next u ∧ u.crc = t.crc ∧ u.res = t.res) ∧
  (∀ s : State, 19 ≤ s.buf.size → ∃ t u,
    runSteps 1 (s.withPending
      [.cmd (encode .ckhdr), .host (.put 17), .cmd (encode .ckhdr)]) = .next t ∧
    runSteps 2 t = .next u ∧ u.crc = t.crc ∧ u.res = t.res) ∧
  (∀ (s : State) (n : Nat), n + 2 ≤ 1024 → n + 2 ≤ s.buf.size → ∃ t u,
    runSteps 1 (s.withPending
      [.cmd (encode (.ckchunk n)), .host (.put n), .cmd (encode (.ckchunk (n + 2)))]) = .next t ∧
    runSteps 2 t = .next u ∧ u.res ≠ t.res)

/-- R37, R41: the host's three actions for a header leave in the buffer a 19-byte frame that carries the name, the length
and their checksum, that is checksum-consistent, and from which name and length are read back. The zeroed padding is the
host model's choice (log 9), and so are the zeros that stand at 17 and 18 before the store (log 19). -/
def Obligations.PreparedHeaderFrameIsConsistent : Prop :=
  ∀ (s : State) (name : List Byte) (length : BitVec 32) (rest : List HostAction), name.length ≤ 12 →
    (∀ b ∈ name, b ≠ 0) → ∃ (t : State) (v : Word),
    runSteps 3 (s.withPending (prepareHeader name length ++ rest)) = .next t ∧
    t.pending = rest ∧ t.res = v ∧ checksum16 (headerInput name length) 17 = some v ∧ t.buf.size = 19 ∧
    (∀ a, memRead t.buf a = (frameOf (headerInput name length) v)[a]?) ∧
    headerConsistent (frameOf (headerInput name length) v) = true ∧
    declaredName (frameOf (headerInput name length) v) = name ∧
    declaredLength (frameOf (headerInput name length) v) = some length

/-- R38, R41: the host's three actions for a chunk leave in the buffer the payload and its checksum, a frame of `n + 2`
bytes that is checksum-consistent. A frame is checksum-consistent exactly when the two bytes behind its checksummed part, read
little-endian, are that part's checksum, with 17 for the 19-byte header frame and the length less 2 for a chunk; an inconsistent
frame is answered 1 (R41, R121). That the host presents a buffer of just `n + 2` bytes is the model's choice (log 19). -/
def Obligations.PreparedChunkFrameIsConsistent : Prop :=
  (∀ (s : State) (bytes : List Byte) (rest : List HostAction), 1 ≤ bytes.length → bytes.length ≤ 1024 →
    ∃ (t : State) (v : Word),
    runSteps 3 (s.withPending (prepareChunk bytes ++ rest)) = .next t ∧
    t.pending = rest ∧ t.res = v ∧ checksum16 bytes bytes.length = some v ∧ t.buf.size = bytes.length + 2 ∧
    (∀ a, memRead t.buf a = (frameOf bytes v)[a]?) ∧ chunkConsistent (frameOf bytes v) = true) ∧
  (∀ (frame : List Byte) (n : Nat), frameConsistent frame n = true ↔
    ∃ b0 b1, frame[n]? = some b0 ∧ frame[n + 1]? = some b1 ∧ checksum16 frame n = some (le16 b0 b1)) ∧
  (∀ frame : List Byte, headerConsistent frame = true ↔ frame.length = 19 ∧
    ∃ b0 b1, frame[17]? = some b0 ∧ frame[18]? = some b1 ∧ checksum16 frame 17 = some (le16 b0 b1)) ∧
  (∀ frame : List Byte, chunkConsistent frame = true ↔
    ∃ n b0 b1, frame.length = n + 2 ∧ frame[n]? = some b0 ∧ frame[n + 1]? = some b1 ∧
      checksum16 frame n = some (le16 b0 b1)) ∧
  (∀ frame : List Byte, (headerConsistent frame = false → peerAnswer (headerConsistent frame) = 1) ∧
    (chunkConsistent frame = false → peerAnswer (chunkConsistent frame) = 1))

/-- R38: the chunks of a source are its bytes in order, none empty, none above 1024, all but the last full; a source of
2500 bytes gives 1024, 1024 and 452, an empty one none. That every read but the last is full for every source is the model's
choice (log 21). -/
def Obligations.SourceIsReadInChunks : Prop :=
  (∀ source : List Byte, (sourceChunks source).flatten = source ∧
    (∀ c ∈ sourceChunks source, 1 ≤ c.length ∧ c.length ≤ 1024) ∧
    ∀ c ∈ (sourceChunks source).dropLast, c.length = 1024) ∧
  (∀ source : List Byte, source.length = 2500 → (sourceChunks source).map List.length = [1024, 1024, 452]) ∧
  sourceChunks [] = []

/-- R119: acknowledgment 0 is acceptance, 1 a checksum mismatch, and every other value, 2 to 255, a fatal peer error that
carries the value. -/
def Obligations.AcknowledgmentByteClasses : Prop :=
  ackOf 0 = .accepted ∧ ackOf 1 = .checksumMismatch ∧ (∀ b : Byte, b ≠ 0 → b ≠ 1 → ackOf b = .fatal b) ∧
  (∀ b : Byte, (b ≠ 0 ∧ b ≠ 1) ↔ 2 ≤ b.toNat ∧ b.toNat ≤ 255)

/-- R120: a frame is written at most 6 times and every write is the identical frame; a sixth mismatch fails; `k` mismatches,
for every `k` up to 5, and then 0 succeed after `k + 1` writes, and then a fatal code fails at once, with no further write. -/
def Obligations.FrameIsWrittenAtMostSixTimes : Prop :=
  (∀ frame acks : List Byte, (sendFrame frame 0 acks).2.length ≤ 6 ∧ 1 ≤ (sendFrame frame 0 acks).2.length ∧
    ∀ f ∈ (sendFrame frame 0 acks).2, f = frame) ∧
  (∀ frame more : List Byte, sendFrame frame 0 (List.replicate 6 1 ++ more) =
    (.tooManyChecksumErrors, List.replicate 6 frame)) ∧
  (∀ (frame more : List Byte) (k : Nat), k ≤ 5 →
    sendFrame frame 0 (List.replicate k 1 ++ 0 :: more) = (.success, List.replicate (k + 1) frame)) ∧
  (∀ (frame more : List Byte) (code : Byte) (k : Nat), k ≤ 5 → code ≠ 0 → code ≠ 1 →
    sendFrame frame 0 (List.replicate k 1 ++ code :: more) = (.peerError code, List.replicate (k + 1) frame))
end

