-- ==== Sys2Proof/Laws/Checksum.lean ====
section
/-! SUPPORT. The small lemmas of the pure functions (40_checksum_function.md). -/

namespace Sys2Proof.Machine

@[simp] theorem runBytes_nil (c : Word) : runBytes c [] = c := rfl

@[simp] theorem runBytes_cons (c : Word) (x : Byte) (xs : List Byte) :
    runBytes c (x :: xs) = runBytes (byteStep c x) xs := rfl

theorem finalise_seed : finalise Config.seed = Config.zeroResult := by decide

theorem checksum16_zero (buf : List Byte) : checksum16 buf 0 = some Config.zeroResult := by
  simp [checksum16]

theorem checksum16_pos {buf : List Byte} {n : Nat} (hn : n ≠ 0) (hl : n ≤ buf.length) :
    checksum16 buf n = some (finalise (runBytes Config.seed (buf.take n))) := by
  simp [checksum16, Nat.not_lt.mpr hl, hn]

theorem checksum16_beyond {buf : List Byte} {n : Nat} (h : buf.length < n) : checksum16 buf n = none := by
  simp [checksum16, h]

/-- `runBytes` in a form whose intermediate registers the kernel evaluates one by one, for long inputs. -/
def runForced (c : Word) (xs : List Byte) : Word :=
  match xs with
  | [] => c
  | x :: rest =>
    match (byteStep c x).toNat with
    | 0 => runForced 0 rest
    | n + 1 => runForced (BitVec.ofNat 16 (n + 1)) rest

theorem runBytes_eq_runForced (c : Word) (xs : List Byte) : runBytes c xs = runForced c xs := by
  induction xs generalizing c with
  | nil => rfl
  | cons x rest ih =>
    simp only [runBytes_cons, runForced]
    split
    · rename_i h
      have hz : byteStep c x = 0#16 := BitVec.eq_of_toNat_eq h
      rw [ih, hz]
      rfl
    · rename_i n h
      have hs : BitVec.ofNat 16 (n + 1) = byteStep c x := by
        have h' : n + 1 = (byteStep c x).toNat := h.symm
        rw [h', BitVec.ofNat_toNat, BitVec.setWidth_eq]
      rw [ih, hs]

end Sys2Proof.Machine
end

