-- ==== Sys2Proof/Laws/State.lean ====
section
/-! SUPPORT. One lemma per field per update of the state and of the buffer. -/

namespace Sys2Proof.Machine

variable (s : State) (v : Word) (l : List HostAction) (b : Buffer) (a m : Nat) (x : Byte)

@[simp] theorem State.setCrc_crc : (s.setCrc v).crc = v := rfl
@[simp] theorem State.setCrc_res : (s.setCrc v).res = s.res := rfl
@[simp] theorem State.setCrc_resSpecified : (s.setCrc v).resSpecified = s.resSpecified := rfl
@[simp] theorem State.setCrc_buf : (s.setCrc v).buf = s.buf := rfl
@[simp] theorem State.setCrc_pending : (s.setCrc v).pending = s.pending := rfl
@[simp] theorem State.setCrc_reads : (s.setCrc v).reads = s.reads := rfl
@[simp] theorem State.setCrc_draws : (s.setCrc v).draws = s.draws := rfl

@[simp] theorem State.setRes_crc : (s.setRes v).crc = s.crc := rfl
@[simp] theorem State.setRes_res : (s.setRes v).res = v := rfl
@[simp] theorem State.setRes_resSpecified : (s.setRes v).resSpecified = true := rfl
@[simp] theorem State.setRes_buf : (s.setRes v).buf = s.buf := rfl
@[simp] theorem State.setRes_pending : (s.setRes v).pending = s.pending := rfl
@[simp] theorem State.setRes_reads : (s.setRes v).reads = s.reads := rfl
@[simp] theorem State.setRes_draws : (s.setRes v).draws = s.draws := rfl

@[simp] theorem State.withPending_crc : (s.withPending l).crc = s.crc := rfl
@[simp] theorem State.withPending_res : (s.withPending l).res = s.res := rfl
@[simp] theorem State.withPending_resSpecified : (s.withPending l).resSpecified = s.resSpecified := rfl
@[simp] theorem State.withPending_buf : (s.withPending l).buf = s.buf := rfl
@[simp] theorem State.withPending_pending : (s.withPending l).pending = l := rfl
@[simp] theorem State.withPending_reads : (s.withPending l).reads = s.reads := rfl
@[simp] theorem State.withPending_draws : (s.withPending l).draws = s.draws := rfl

@[simp] theorem State.restart_crc : s.restart.crc = Config.seed := rfl
@[simp] theorem State.restart_res : s.restart.res = State.reset.res := rfl
@[simp] theorem State.restart_resSpecified : s.restart.resSpecified = false := rfl
@[simp] theorem State.restart_buf : s.restart.buf = s.buf := rfl
@[simp] theorem State.restart_pending : s.restart.pending = s.pending := rfl
@[simp] theorem State.restart_reads : s.restart.reads = s.reads := rfl
@[simp] theorem State.restart_draws : s.restart.draws = s.draws := rfl

@[simp] theorem presentBuffer_crc : (presentBuffer m s).crc = s.crc := rfl
@[simp] theorem presentBuffer_res : (presentBuffer m s).res = s.res := rfl
@[simp] theorem presentBuffer_resSpecified : (presentBuffer m s).resSpecified = s.resSpecified := rfl
@[simp] theorem presentBuffer_buf : (presentBuffer m s).buf = { size := m, cells := [], draw := s.draws } := rfl
@[simp] theorem presentBuffer_pending : (presentBuffer m s).pending = s.pending := rfl
@[simp] theorem presentBuffer_reads : (presentBuffer m s).reads = s.reads := rfl
@[simp] theorem presentBuffer_draws : (presentBuffer m s).draws = s.draws + 1 := rfl

@[simp] theorem Buffer.setByte_size : (b.setByte a x).size = b.size := rfl
@[simp] theorem Buffer.setByte_draw : (b.setByte a x).draw = b.draw := rfl
@[simp] theorem Buffer.setByte_cells : (b.setByte a x).cells = insertCell a x b.cells := rfl

/-- The block commands' shared effect, field by field. -/
@[simp] theorem absorbBuffer_crc : (absorbBuffer m s).crc = runBytes Config.seed (blockBytes s.buf m) := rfl
@[simp] theorem absorbBuffer_res :
    (absorbBuffer m s).res = finalise (runBytes Config.seed (blockBytes s.buf m)) := rfl
@[simp] theorem absorbBuffer_resSpecified : (absorbBuffer m s).resSpecified = true := rfl
@[simp] theorem absorbBuffer_buf : (absorbBuffer m s).buf = s.buf := rfl
@[simp] theorem absorbBuffer_pending : (absorbBuffer m s).pending = s.pending := rfl
@[simp] theorem absorbBuffer_reads : (absorbBuffer m s).reads = s.reads := rfl
@[simp] theorem absorbBuffer_draws : (absorbBuffer m s).draws = s.draws := rfl

/-- What reading the `res` port can do: give `RES`, or draw; and it changes nothing but the draw counter. -/
theorem readResPort_specified (h : s.resSpecified = true) : readResPort s = (s.res, s) := by
  simp [readResPort, h]

theorem readResPort_unspecified (h : s.resSpecified = false) :
    readResPort s = (Config.freeRes s.draws, { s with draws := s.draws + 1 }) := by
  simp [readResPort, h]

@[simp] theorem readResPort_crc : (readResPort s).2.crc = s.crc := by
  unfold readResPort; split <;> rfl
@[simp] theorem readResPort_res : (readResPort s).2.res = s.res := by
  unfold readResPort; split <;> rfl
@[simp] theorem readResPort_resSpecified : (readResPort s).2.resSpecified = s.resSpecified := by
  unfold readResPort; split <;> rfl
@[simp] theorem readResPort_buf : (readResPort s).2.buf = s.buf := by
  unfold readResPort; split <;> rfl
@[simp] theorem readResPort_pending : (readResPort s).2.pending = s.pending := by
  unfold readResPort; split <;> rfl
@[simp] theorem readResPort_reads : (readResPort s).2.reads = s.reads := by
  unfold readResPort; split <;> rfl

end Sys2Proof.Machine
end

