-- ==== Sys2Proof/Laws/Memory.lean ====
section
/-! SUPPORT. The buffer: a read after a write, what a write leaves alone, and that every memory operation keeps the
canonical form (20_memory.md R30 to R33). -/

namespace Sys2Proof.Machine

theorem lookupCell_insertCell_same (a : Nat) (v : Byte) (l : List Host.Cell) :
    lookupCell a (insertCell a v l) = some v := by
  induction l with
  | nil => simp [insertCell, lookupCell]
  | cons c rest ih =>
    obtain ⟨k, x⟩ := c
    simp only [insertCell]
    split
    · simp [lookupCell]
    · split
      · simp [lookupCell]
      · rename_i _ h
        simp [lookupCell, Ne.symm h, ih]

theorem lookupCell_insertCell_other {a a' : Nat} (v : Byte) (l : List Host.Cell) (h : a' ≠ a) :
    lookupCell a' (insertCell a v l) = lookupCell a' l := by
  induction l with
  | nil => simp [insertCell, lookupCell, Ne.symm h]
  | cons c rest ih =>
    obtain ⟨k, x⟩ := c
    simp only [insertCell]
    split
    · simp [lookupCell, Ne.symm h]
    · split
      · rename_i _ hk
        subst hk
        simp [lookupCell, Ne.symm h]
      · simp [lookupCell, ih]

theorem cellsCanonical_insertCell {lo m a : Nat} {v : Byte} {l : List Host.Cell}
    (hl : cellsCanonical lo m l = true) (hlo : lo ≤ a) (ha : a < m) :
    cellsCanonical lo m (insertCell a v l) = true := by
  induction l generalizing lo with
  | nil => simp [insertCell, cellsCanonical, hlo, ha]
  | cons c rest ih =>
    obtain ⟨k, x⟩ := c
    simp only [cellsCanonical, Bool.and_eq_true, decide_eq_true_eq] at hl
    obtain ⟨⟨h1, h2⟩, h3⟩ := hl
    simp only [insertCell]
    split
    · rename_i hk
      simp [cellsCanonical, hlo, ha, h2, h3, Nat.succ_le_of_lt hk]
    · split
      · rename_i _ hk
        subst hk
        simp [cellsCanonical, hlo, ha, h3]
      · rename_i hk hne
        have : k + 1 ≤ a := by omega
        simp [cellsCanonical, h1, h2, ih h3 this]

theorem cellsCanonical_cellsFrom (a m : Nat) (bs : List Byte) (h : a + bs.length ≤ m) :
    cellsCanonical a m (cellsFrom a bs) = true := by
  induction bs generalizing a with
  | nil => rfl
  | cons b rest ih =>
    simp only [List.length_cons] at h
    have : a < m := by omega
    simp [cellsFrom, cellsCanonical, this, ih (a + 1) (by omega)]

theorem lookupCell_cellsFrom (a i : Nat) (bs : List Byte) : lookupCell (a + i) (cellsFrom a bs) = bs[i]? := by
  induction bs generalizing a i with
  | nil => simp [cellsFrom, lookupCell]
  | cons b rest ih =>
    cases i with
    | zero => simp [cellsFrom, lookupCell]
    | succ j =>
      have h : a + (j + 1) = (a + 1) + j := by omega
      have hne : a ≠ (a + 1) + j := by omega
      simp [cellsFrom, lookupCell, h, hne, ih]

/-- A host write at an existing offset keeps the canonical form. -/
theorem Buffer.wf_setByte {b : Buffer} {a : Nat} {v : Byte} (hb : b.wf = true) (ha : a < b.size) :
    (b.setByte a v).wf = true :=
  cellsCanonical_insertCell hb (Nat.zero_le a) ha

/-- A presented buffer is in canonical form. -/
theorem presentBuffer_wf (m : Nat) (s : State) : (presentBuffer m s).buf.wf = true := rfl

/-- A buffer filled with bytes is in canonical form. -/
theorem cellsFrom_wf (bs : List Byte) (d : Nat) :
    ({ size := bs.length, cells := cellsFrom 0 bs, draw := d } : Buffer).wf = true :=
  cellsCanonical_cellsFrom 0 bs.length bs (by omega)

theorem Buffer.byteAt_setByte_same (b : Buffer) (a : Nat) (v : Byte) : (b.setByte a v).byteAt a = v := by
  simp [Buffer.byteAt, lookupCell_insertCell_same]

theorem Buffer.byteAt_setByte_other (b : Buffer) {a a' : Nat} (v : Byte) (h : a' ≠ a) :
    (b.setByte a v).byteAt a' = b.byteAt a' := by
  simp [Buffer.byteAt, lookupCell_insertCell_other v b.cells h]

theorem memRead_of_lt {b : Buffer} {a : Nat} (h : a < b.size) : memRead b a = some (b.byteAt a) := by
  simp [memRead, h]

theorem memRead_of_le {b : Buffer} {a : Nat} (h : b.size ≤ a) : memRead b a = none := by
  simp [memRead, Nat.not_lt.mpr h]

/-- A read after a write to the same offset. -/
theorem memRead_setByte_same {b : Buffer} {a : Nat} (v : Byte) (h : a < b.size) :
    memRead (b.setByte a v) a = some v := by
  simp [memRead, h, Buffer.byteAt_setByte_same]

/-- A write leaves every other offset alone. -/
theorem memRead_setByte_other (b : Buffer) {a a' : Nat} (v : Byte) (h : a' ≠ a) :
    memRead (b.setByte a v) a' = memRead b a' := by
  simp [memRead, Buffer.byteAt_setByte_other b v h]

@[simp] theorem blockBytes_length (b : Buffer) (n : Nat) : (blockBytes b n).length = n := by
  simp [blockBytes]

/-- The input of a block command is what the offsets below `n` read as. -/
theorem blockBytes_getElem? {b : Buffer} {n i : Nat} (hn : n ≤ b.size) (hi : i < n) :
    (blockBytes b n)[i]? = memRead b i := by
  simp [blockBytes, hi, memRead_of_lt (Nat.lt_of_lt_of_le hi hn)]

/-- A list of the bytes read at the offsets below `n` is the input of a block command. -/
theorem blockBytes_eq_of_memRead {b : Buffer} {n : Nat} {xs : List Byte} (hn : n ≤ b.size) (hl : xs.length = n)
    (h : ∀ i, i < n → memRead b i = xs[i]?) : blockBytes b n = xs := by
  apply List.ext_getElem?
  intro i
  by_cases hi : i < n
  · rw [blockBytes_getElem? hn hi, h i hi]
  · rw [List.getElem?_eq_none (by simpa using hi), List.getElem?_eq_none (by omega)]

/-- Two buffers whose offsets below `n` read alike give a block command the same input. -/
theorem blockBytes_congr {b b' : Buffer} {n : Nat} (hn : n ≤ b.size) (hn' : n ≤ b'.size)
    (h : ∀ i, i < n → memRead b i = memRead b' i) : blockBytes b n = blockBytes b' n :=
  blockBytes_eq_of_memRead hn (blockBytes_length b' n)
    (fun i hi => by rw [h i hi, blockBytes_getElem? hn' hi])

end Sys2Proof.Machine
end

