-- ==== Sys2Proof/Laws/PerInstr.lean ====
section
/-! SUPPORT. Families of statements about every command as syntax, one lemma per constructor. -/

namespace Sys2Proof.Laws.EncodingMatchesRow

/-- The word of a well-formed command matches the command's row of the opcode map, and the row carries the command's
mnemonic (30_encoding.md R52). -/
def Statement (i : Instr) : Prop :=
  i.wellFormed = true →
    (opcodeRow i).matchesWord (encode i) = true ∧ (opcodeRow i).mnemonic = i.mnemonic ∧ opcodeRow i ∈ opcodeMap

theorem ckseed : Statement .ckseed := fun _ => by decide

theorem ckbyte (imm8 : Byte) : Statement (.ckbyte imm8) := fun _ => by
  revert imm8
  decide

theorem ckfin : Statement .ckfin := fun _ => by decide

theorem ckhdr : Statement .ckhdr := fun _ => by decide

theorem ckchunk (n : Nat) : Statement (.ckchunk n) := fun _ => by
  have h : ∀ a : BitVec 12, ((0x5000 : Word) ||| a.setWidth 16) &&& 0xF000 = 0x5000 := by
    intro a
    ext i hi
    have : i = 0 ∨ i = 1 ∨ i = 2 ∨ i = 3 ∨ i = 4 ∨ i = 5 ∨ i = 6 ∨ i = 7 ∨ i = 8 ∨ i = 9 ∨ i = 10 ∨ i = 11 ∨
      i = 12 ∨ i = 13 ∨ i = 14 ∨ i = 15 := by omega
    rcases this with h | h | h | h | h | h | h | h | h | h | h | h | h | h | h | h <;> subst h <;> simp
  exact ⟨beq_iff_eq.2 (h _), rfl, by simp [opcodeMap, opcodeRow]⟩

end Sys2Proof.Laws.EncodingMatchesRow
end

