-- ==== Sys2Proof/Laws/Step.lean ====
section
/-! SUPPORT. What a step, a host move and a block command can do, said once: each lemma lists every way an operation can
answer a next state. -/

namespace Sys2Proof.Machine

/-- A decoding error carries the word that was decoded. -/
theorem decode_error {w : Word} {e : DecodeError} (h : decode w = .error e) : e = .illegalCommand w := by
  simp only [decode] at h
  repeat' split at h
  all_goals first | exact (Except.error.inj h).symm | (simp at h)

@[simp] theorem runSteps_zero (s : State) : runSteps 0 s = .next s := rfl

/-- A run whose first step answers a next state goes on from it. -/
theorem runSteps_succ {k : Nat} {s t : State} (h : step s = .next t) : runSteps (k + 1) s = runSteps k t := by
  have hs : Sys2Proof.core.step s = .next t := h
  simp only [runSteps, Host.Core.run, hs]
  rfl

/-- A run whose first step is refused is refused. -/
theorem runSteps_refused {k : Nat} {s : State} {r : Refusal} (h : step s = .refused r) :
    runSteps (k + 1) s = .refused r := by
  have hs : Sys2Proof.core.step s = .refused r := h
  simp only [runSteps, Host.Core.run, hs]
  rfl

/-- A run that answers a next state took a first step and went on from it. -/
theorem runSteps_succ_next {k : Nat} {s t : State} (h : runSteps (k + 1) s = .next t) :
    ∃ u, step s = .next u ∧ runSteps k u = .next t := by
  cases hs : step s with
  | next u => exact ⟨u, rfl, by rwa [runSteps_succ hs] at h⟩
  | refused r => simp [runSteps_refused hs] at h
  | fault f =>
    have hc : Sys2Proof.core.step s = .fault f := hs
    simp [runSteps, Host.Core.run, hc] at h

/-- A run goes on from the state an initial part of it answers. -/
theorem runSteps_add {j : Nat} (k : Nat) {s t : State} (h : runSteps j s = .next t) :
    runSteps (j + k) s = runSteps k t := by
  induction j generalizing s with
  | zero =>
    rw [runSteps_zero] at h
    injection h with h
    rw [h, Nat.zero_add]
  | succ j ih =>
    obtain ⟨u, hu, ht⟩ := runSteps_succ_next h
    rw [Nat.add_right_comm, runSteps_succ hu, ih ht]

/-- Every way a step answers a next state. -/
theorem step_next {s t : State} (h : step s = .next t) :
    (s.pending = [] ∧ t = s) ∨
    (∃ m rest, s.pending = .host m :: rest ∧ hostMove m (s.withPending rest) = .next t) ∨
    (∃ w rest i, s.pending = .cmd w :: rest ∧ decode w = .ok i ∧ exec i (s.withPending rest) = .next t) := by
  cases hp : s.pending with
  | nil =>
    simp only [step, nextAction, hp] at h
    exact .inl ⟨rfl, by injection h with h; exact h.symm⟩
  | cons a rest =>
    cases a with
    | host m =>
      simp only [step, nextAction, hp] at h
      exact .inr (.inl ⟨m, rest, rfl, h⟩)
    | cmd w =>
      simp only [step, nextAction, hp] at h
      cases hd : decode w with
      | ok i =>
        simp only [hd] at h
        exact .inr (.inr ⟨w, rest, i, rfl, hd, h⟩)
      | error e =>
        rw [decode_error hd] at hd
        simp [hd, refuse] at h

/-- `CKHDR` completes exactly when the buffer is long enough, with the shared effect over 17 bytes. -/
theorem execCkhdr_next {s t : State} (h : execCkhdr s = .next t) :
    Config.hdrLen ≤ s.buf.size ∧ t = absorbBuffer Config.hdrLen s := by
  unfold execCkhdr at h
  split at h
  · simp [refuse] at h
  · rename_i hm
    exact ⟨Nat.not_lt.mp hm, by injection h with h; exact h.symm⟩

/-- The zero-length branch of `CKCHUNK` writes what the general branch would (40_checksum_function.md R77). -/
theorem absorbBuffer_zero (s : State) :
    absorbBuffer 0 s = (s.setCrc Config.seed).setRes Config.zeroResult := by
  have h : blockBytes s.buf 0 = [] := rfl
  simp [absorbBuffer, h, finalise_seed]

/-- `CKCHUNK` within its two bounds is the shared effect, for every length. -/
theorem execCkchunk_accepted {s : State} {n : Nat} (h1 : n ≤ Config.chunkMax) (h2 : n ≤ s.buf.size) :
    execCkchunk n s = .next (absorbBuffer n s) := by
  unfold execCkchunk
  rw [if_neg (Nat.not_lt.mpr h1), if_neg (Nat.not_lt.mpr h2)]
  split
  · rename_i h0
    subst h0
    rw [absorbBuffer_zero]
  · rfl

/-- `CKCHUNK` completes exactly within its two bounds, with the shared effect. -/
theorem execCkchunk_next {s t : State} {n : Nat} (h : execCkchunk n s = .next t) :
    n ≤ Config.chunkMax ∧ n ≤ s.buf.size ∧ t = absorbBuffer n s := by
  by_cases h1 : n ≤ Config.chunkMax
  · by_cases h2 : n ≤ s.buf.size
    · rw [execCkchunk_accepted h1 h2] at h
      exact ⟨h1, h2, by injection h with h; exact h.symm⟩
    · simp [execCkchunk, refuse, Nat.not_lt.mpr h1, Nat.lt_of_not_le h2] at h
  · simp [execCkchunk, refuse, Nat.lt_of_not_le h1] at h

/-- What every completed host move leaves alone: the two registers and what the host will do. -/
theorem hostMove_next_registers {m : HostMove} {s t : State} (h : hostMove m s = .next t) :
    t.crc = s.crc ∧ t.res = s.res ∧ t.resSpecified = s.resSpecified ∧ t.pending = s.pending := by
  cases m with
  | buf bytes => simp only [hostMove, hostBuf] at h; injection h with h; subst h; simp
  | present m => simp only [hostMove, hostPresent] at h; injection h with h; subst h; simp
  | write a b =>
    simp only [hostMove, hostWrite] at h
    split at h
    · injection h with h; subst h; simp
    · simp at h
  | put n =>
    simp only [hostMove, hostPut] at h
    split at h
    · simp at h
    · injection h with h; subst h; simp
  | readRes => simp only [hostMove, hostReadRes] at h; injection h with h; subst h; simp
  | readCrc => simp only [hostMove, hostReadCrc] at h; injection h with h; subst h; simp

/-- Every completed host move keeps the buffer's canonical form. -/
theorem hostMove_next_wf {m : HostMove} {s t : State} (hb : s.buf.wf = true) (h : hostMove m s = .next t) :
    t.buf.wf = true := by
  cases m with
  | buf bytes => simp only [hostMove, hostBuf] at h; injection h with h; subst h; exact cellsFrom_wf bytes s.draws
  | present m => simp only [hostMove, hostPresent] at h; injection h with h; subst h; exact presentBuffer_wf m s
  | write a b =>
    simp only [hostMove, hostWrite] at h
    split at h
    · rename_i ha
      injection h with h; subst h
      exact Buffer.wf_setByte hb ha
    · simp at h
  | put n =>
    simp only [hostMove, hostPut] at h
    split at h
    · simp at h
    · rename_i hn
      have hn : n + 2 ≤ s.buf.size := Nat.not_lt.mp hn
      injection h with h; subst h
      simp only [readResPort_buf]
      exact Buffer.wf_setByte (Buffer.wf_setByte hb (by omega)) (by simp; omega)
  | readRes => simp only [hostMove, hostReadRes] at h; injection h with h; subst h; simpa using hb
  | readCrc => simp only [hostMove, hostReadCrc] at h; injection h with h; subst h; simpa using hb

end Sys2Proof.Machine
end

