-- ==== Sys2Proof/Tests/Slice0.lean ====
section
/-! SUPPORT. Tests with expected results from the spec (30_encoding.md R52, R60; 95_test_vectors.md, by id), the smoke test of
WellFormed, and for every obligation with hypotheses a named witness that meets them together. -/

namespace Sys2Proof.Tests

open Sys2Proof.Machine

/-- A small state: registers and a written buffer. -/
def mk (crc res : Word) (bytes : List Byte) (pending : List HostAction) : State :=
  { crc := crc
    res := res
    resSpecified := true
    buf := { size := bytes.length, cells := cellsFrom 0 bytes, draw := 0 }
    pending := pending
    reads := []
    draws := 0 }

/-- `CRC` and `RES` after one step, if it answers a next state. -/
def regsAfter (s : State) : Option (Word × Word) :=
  match step s with
  | .next t => some (t.crc, t.res)
  | _ => none

/-- The reason a step is refused, if it is. -/
def refusalOf (s : State) : Option Refusal :=
  match step s with
  | .refused r => some r
  | _ => none

/-- The fault of a step, if any. -/
def faultOf (s : State) : Option Fault :=
  match step s with
  | .fault f => some f
  | _ => none

/-- The bytes of the buffer after one step. -/
def bytesAfter (s : State) : Option (List Byte) :=
  match step s with
  | .next t => some (blockBytes t.buf t.buf.size)
  | _ => none

/-! WellFormed smoke: each check refuses an ill-formed term. -/

theorem test_wellFormed_refuses_length_beyond_12_bits : (Instr.ckchunk 4096).wellFormed = false := by decide
theorem test_legal_refuses_length_1025 : (Instr.ckchunk 1025).legal = false := by decide
theorem test_length_1025_is_wellFormed : (Instr.ckchunk 1025).wellFormed = true := by decide

/-! Decoding: words written out bit by bit from R50 and R52. -/

theorem test_decode_ckseed_bits : decode 0b0001000000000000 = .ok .ckseed := by decide
theorem test_decode_ckbyte_bits : decode 0b0010000010100101 = .ok (.ckbyte 0xA5) := by decide
theorem test_decode_ckfin_bits : decode 0b0011000000000000 = .ok .ckfin := by decide
theorem test_decode_ckhdr_bits : decode 0b0100000000000000 = .ok .ckhdr := by decide
theorem test_decode_ckchunk_bits : decode 0b0101000111000100 = .ok (.ckchunk 452) := by decide
/-- V41. -/
theorem test_decode_ckhdr_with_length_is_illegal : decode 0x4011 = .error (.illegalCommand 0x4011) := by decide
theorem test_decodeTableWord_ckchunk : decodeTableWord 16 0x5003 = some (.ckchunk 3) := by decide
theorem test_decodeTableWord_illegal : decodeTableWord 16 0x3800 = none := by decide

/-! The functions: V2, V9b, V5, V12, V14, and the X-25 check value of R84. -/

theorem test_byteStep_V2 : byteStep 0xFFFF 0x01 = 0x1E0E := by decide
theorem test_run_V9b : runBytes 0xFFFF [0x1A] = 0xB05C := by decide
theorem test_finalise_V5 : finalise 0xFF00 = 0xFF00 := by decide
theorem test_checksum_V12 :
    checksum16 [0x31, 0x32, 0x33, 0x34, 0x35, 0x36, 0x37, 0x38, 0x39] 9 = some 0x6E90 := by decide +kernel
theorem test_checksum_collision_V14 : checksum16 [0x01, 0x08, 0x01] 3 = some 0x5943 ∧
    checksum16 [0x10, 0x00, 0x00] 3 = some 0x5943 := by decide +kernel
/-- V30: 1024 zero bytes, and the first 452 bytes of `i mod 256`. -/
theorem test_run_1024_zeros_V30 : runBytes 0xFFFF (List.replicate 1024 0) = 0xF6ED := by
  rw [runBytes_eq_runForced]
  decide +kernel
theorem test_run_452_bytes_V30 : finalise (runBytes 0xFFFF ((List.range 452).map (BitVec.ofNat 8))) = 0x8F70 := by
  rw [runBytes_eq_runForced]
  decide +kernel
/-- R72: the table entry of 2. -/
theorem test_shift8_table : shift8 2 = 0x2312 := by decide

/-! One step per test: V40, V20, V21, V13, V10, V30. -/

theorem test_ckseed_V40 : regsAfter (mk 0x1234 0xABCD [] [.cmd 0x1000]) = some (0xFFFF, 0xABCD) := by decide
theorem test_ckbyte_V40 : regsAfter (mk 0x5C0A 0xABCD [] [.cmd 0x2042]) = some (0xCE10, 0xABCD) := by decide
theorem test_ckbyte_from_zero_V40 : regsAfter (mk 0x0000 0xABCD [] [.cmd 0x2041]) = some (0x538D, 0xABCD) := by decide
theorem test_ckfin_V40 : regsAfter (mk 0xCE10 0xABCD [] [.cmd 0x3000]) = some (0xCE10, 0xEF31) := by decide
theorem test_ckhdr_V20 : regsAfter (mk 0x1234 0
    [0x41, 0x2E, 0x54, 0x58, 0x54, 0, 0, 0, 0, 0, 0, 0, 0, 0x64, 0, 0, 0, 0, 0] [.cmd 0x4000]) =
    some (0x8CF7, 0x0873) := by decide +kernel
/-- V21: a padding byte that is not zero counts. -/
theorem test_ckhdr_padding_counts_V21 : regsAfter (mk 0 0
    [0x41, 0x2E, 0x54, 0x58, 0x54, 0, 0xAA, 0, 0, 0, 0, 0, 0, 0x64, 0, 0, 0] [.cmd 0x4000]) =
    some (0xEBEE, 0x1114) := by decide +kernel
theorem test_ckchunk_prefix_V13 : regsAfter (mk 0 0 [0x41, 0x42, 0x43] [.cmd 0x5002]) = some (0xCE10, 0xEF31) := by
  decide +kernel
theorem test_ckchunk_zero_length_V10 : regsAfter (mk 0x1234 0xABCD [0x41] [.cmd 0x5000]) = some (0xFFFF, 0x0000) := by
  decide
/-- V43: after reset, `CKFIN` gives the zero-length checksum. -/
theorem test_ckfin_after_reset_V43 : regsAfter (State.reset.withFetchWord 16 0x3000) = some (0xFFFF, 0x0000) := by
  decide

/-! Refusals and faults: V41, V42, P6. -/

theorem test_refused_illegal_V41 : refusalOf (mk 0 0 [] [.cmd 0x2141]) = some (.illegalCommand 0x2141) := by decide
theorem test_refused_order_V41 : refusalOf (mk 0 0 [0, 0] [.cmd 0x5FFF]) = some (.lengthRange 4095) := by decide
theorem test_refused_short_V42 : refusalOf (mk 0 0 [0x41, 0x42, 0x43] [.cmd 0x5004]) = some (.bufferShort 4 3) := by
  decide
theorem test_refused_header_V42 : refusalOf (mk 0 0 (List.replicate 16 0) [.cmd 0x4000]) =
    some (.bufferShort 17 16) := by decide

/-! The host: P2 step 3, R59, R120. -/

theorem test_put_P2 : bytesAfter (mk 0x60D0 0x2F9F [0x41, 0x42, 0x43, 0xEE, 0xEE] [.host (.put 3)]) =
    some [0x41, 0x42, 0x43, 0x9F, 0x2F] := by decide
theorem test_put_needs_room : faultOf (mk 0 0 [0x41, 0x42, 0x43] [.host (.put 2)]) = some (.putOutside 2 3) := by
  decide
theorem test_write_outside : faultOf (mk 0 0 [0x41] [.host (.write 1 0)]) = some (.hostWriteOutside 1 1) := by decide
theorem test_buf_directive : bytesAfter (mk 0 0 [] [.host (.buf [0x41, 0x42])]) = some [0x41, 0x42] := by decide
/-- V22: the header of "FILENAME.EXT", length 2500. -/
theorem test_headerInput_V22 : headerInput [0x46, 0x49, 0x4C, 0x45, 0x4E, 0x41, 0x4D, 0x45, 0x2E, 0x45, 0x58, 0x54] 2500 =
    [0x46, 0x49, 0x4C, 0x45, 0x4E, 0x41, 0x4D, 0x45, 0x2E, 0x45, 0x58, 0x54, 0x00, 0xC4, 0x09, 0x00, 0x00] := by decide
/-- V20: the complete frame is consistent. -/
theorem test_header_frame_V20 : headerConsistent
    [0x41, 0x2E, 0x54, 0x58, 0x54, 0, 0, 0, 0, 0, 0, 0, 0, 0x64, 0, 0, 0, 0x73, 0x08] = true := by decide +kernel
/-- S7: three mismatches, then acceptance, after exactly 4 writes. -/
theorem test_retry_S7 : ((sendFrame [0x41] 0 [1, 1, 1, 0]).1, (sendFrame [0x41] 0 [1, 1, 1, 0]).2.length) =
    (.success, 4) := by decide
/-- R58 and R60: a character operand with a comment after it. -/
theorem test_assemble_line : assemble [['C', 'K', 'B', 'Y', 'T', 'E', ' ', '\'', ';', '\'', ' ', ';', 'x'],
    ['.', 'b', 'u', 'f', ' ', '1', ',', ' ', '0', 'x', 'f', 'F']] =
    some [.cmd 0x203B, .host (.buf [0x01, 0xFF])] := by decide

/-! Witnesses: each obligation with hypotheses, met by concrete values, boundary values where a range has one. -/

theorem witness_BitStepShiftsAndFeedsBack : (14 : Nat) < 15 := by decide
theorem witness_ChecksumIgnoresBytesBeyondTheLength : (2 : Nat) ≤ ([0x41, 0x42, 0x43] : List Byte).length ∧
    2 ≤ ([0x41, 0x42] : List Byte).length ∧
    ∀ i, i < 2 → ([0x41, 0x42, 0x43] : List Byte)[i]? = ([0x41, 0x42] : List Byte)[i]? := by decide
theorem witness_ChecksumIsLinearOverGF2 : ([0x01] : List Byte).length = ([0xFF] : List Byte).length ∧ (14 : Nat) < 15 := by
  decide
theorem witness_SingleBitChangeChangesTheChecksum : ([0x41, 0x42] : List Byte)[1]? = some 0x42 ∧ (7 : Nat) < 8 := by decide
theorem witness_FinaliseInvertsAndExchangesBytes : (15 : Nat) < 16 := by decide
theorem witness_ChecksumSeedsConsumesFinalises : (1 : Nat) ≤ 1 ∧ 1 ≤ ([0x41] : List Byte).length ∧
    ([0x41] : List Byte).length < 2 := by decide
theorem witness_OneFormulaForEveryLength : (0 : Nat) ≤ ([] : List Byte).length := by decide
theorem witness_DecodeEncodeIsIdentity : (Instr.ckchunk 4095).wellFormed = true := by decide
theorem witness_EncodeDecodeIsIdentity : decode 0x5FFF = .ok (.ckchunk 4095) := by decide
theorem witness_OpcodeMapDecidesDecoding :
    ({ mnemonic := "CKBYTE", pattern := 0x2000, mask := 0xFF00 } : OpcodeRow) ∈ opcodeMap ∧
    ((0x20FF : Word) &&& 0xFF00) = 0x2000 ∧ ∀ r ∈ opcodeMap, ((0x2100 : Word) &&& r.mask) ≠ r.pattern := by decide
theorem witness_AssemblerLinesGiveTheirWords : (255 : Nat) ≤ 255 ∧ (255 : Nat) < 256 ∧ (1024 : Nat) ≤ 1024 ∧
    (1024 : Nat) < 1025 ∧ (Char.ofNat 127).toNat < 128 ∧
    assemble [['C', 'K', 'F', 'I', 'N']] = some [.cmd 0x3000] ∧
    assemble [['C', 'K', 'B', 'Y', 'T', 'E', ' ', '2', '5', '5']] = some [.cmd 0x20FF] := by decide
theorem witness_PseudoInstructionsExpand : ([0x41] : List Byte) ≠ [] := by decide
theorem witness_StepRunsTheDecodedCommand : (mk 0 0 [] [.cmd 0x1000]).pending = [.cmd 0x1000] ∧
    decode 0x1000 = .ok .ckseed := by decide
theorem witness_StepPerformsTheHostMove : (mk 0 0 [] [.host .readCrc]).pending = [.host .readCrc] := by decide
theorem witness_StepWaitsForTheHost : State.reset.pending = [] := by decide
theorem witness_CommandRefusedExactlyAsListed : (mk 0 0 [] [.cmd 0x5401]).pending = [.cmd 0x5401] ∧
    decode 0x5401 = .ok (.ckchunk 1025) ∧ (1024 : Nat) < 1025 := by decide
theorem witness_CommandRefused_short : (mk 0 0 [] [.cmd 0x5400]).pending = [.cmd 0x5400] ∧
    decode 0x5400 = .ok (.ckchunk 1024) ∧ (mk 0 0 [] []).buf.size < 1024 := by decide
theorem witness_CommandRefused_header : (mk 0 0 (List.replicate 16 0) [.cmd 0x4000]).pending = [.cmd 0x4000] ∧
    decode 0x4000 = .ok .ckhdr ∧ (mk 0 0 (List.replicate 16 0) []).buf.size < 17 := by decide
theorem witness_CommandCompletesOrIsRefused : (mk 0 0 [] [.cmd 0x3000]).pending = [.cmd 0x3000] := by decide
/-- P6, run a: an illegal word after a command that executes. -/
theorem witness_RefusedRunStaysRefused_illegal :
    runSteps 1 (mk 0 0 [] [.cmd 0x1000, .cmd 0x2141, .cmd 0x1000]) = .next (mk 0xFFFF 0 [] [.cmd 0x2141, .cmd 0x1000]) ∧
    decode 0x2141 = .error (.illegalCommand 0x2141) := ⟨rfl, by decide⟩
/-- P6, runs b and c, and a chunk one byte too long: none is accepted. -/
theorem witness_RefusedRunStaysRefused_not_accepted :
    runSteps 0 (mk 0 0 (List.replicate 16 0) [.cmd 0x4000]) = .next (mk 0 0 (List.replicate 16 0) [.cmd 0x4000]) ∧
    decode 0x4000 = .ok .ckhdr ∧ accepted .ckhdr (mk 0 0 (List.replicate 16 0) [.cmd 0x4000]) = false ∧
    decode 0x5401 = .ok (.ckchunk 1025) ∧ accepted (.ckchunk 1025) (presentBuffer 2000 State.reset) = false ∧
    decode 0x5004 = .ok (.ckchunk 4) ∧ (4 : Nat) ≤ 1024 ∧ (mk 0 0 [0x41, 0x42, 0x43] []).buf.size < 4 :=
  ⟨rfl, by decide⟩
theorem witness_CkseedSetsTheSeed : (0x1000 : Nat) < (0x1FFF : Word).toNat ∧ (0x1FFF : Word).toNat < 0x2000 := by decide
theorem witness_CkbyteTakesOneByteStep : (0x2100 : Nat) ≤ (0x2100 : Word).toNat ∧ (0x2FFF : Word).toNat < 0x3000 ∧
    byteStep 0xFFFF 0x41 = byteStep 0xFFFF 0x41 := by decide
theorem witness_ZeroByteChangesEveryNonzeroRegister : (0xF80F : Word) ≠ 0x0000 := by decide
theorem witness_CkfinFinalisesTheRegister : exec .ckfin State.reset = .next (State.reset.setRes 0x0000) := rfl
theorem witness_CkhdrChecksumsTheHeader : (List.replicate 17 (0x41 : Byte)).length = 17 ∧
    (∀ i, i < 17 → memRead (mk 0 0 (List.replicate 17 0x41) []).buf i = (List.replicate 17 (0x41 : Byte))[i]?) ∧
    17 ≤ (mk 0 0 (List.replicate 17 0x41) []).buf.size ∧ (mk 0 0 (List.replicate 16 0x41) []).buf.size < 17 := by decide
theorem witness_CkhdrChecksumsTheHeader_example : ∀ i, i < 17 → memRead (mk 0 0
    [0x41, 0x2E, 0x54, 0x58, 0x54, 0, 0, 0, 0, 0, 0, 0, 0, 0x64, 0, 0, 0] []).buf i =
    ([0x41, 0x2E, 0x54, 0x58, 0x54, 0, 0, 0, 0, 0, 0, 0, 0, 0x64, 0, 0, 0] : List Byte)[i]? := by decide
theorem witness_CkchunkChecksumsThePrefix : (4095 : Nat) < 4096 ∧ (3 : Nat) ≤ 1024 ∧
    3 ≤ (mk 0 0 [0x41, 0x42, 0x43] []).buf.size ∧ ([0x41, 0x42, 0x43] : List Byte).length = 3 ∧
    (∀ i, i < 3 → memRead (mk 0 0 [0x41, 0x42, 0x43] []).buf i = ([0x41, 0x42, 0x43] : List Byte)[i]?) ∧
    (1024 : Nat) < 1025 ∧ (mk 0 0 [0x41, 0x42, 0x43] []).buf.size < 4 := by decide
/-- The full chunk meets the two bounds at their ends. -/
theorem witness_CkchunkChecksumsThePrefix_full :
    (1024 : Nat) ≤ 1024 ∧ 1024 ≤ (presentBuffer 1024 State.reset).buf.size := by decide
theorem witness_CkchunkChecksumsThePrefix_example : (mk 0 0 [0x41, 0x42, 0x43] []).buf.size = 3 ∧
    memRead (mk 0 0 [0x41, 0x42, 0x43] []).buf 0 = some 0x41 ∧ memRead (mk 0 0 [0x41, 0x42, 0x43] []).buf 1 = some 0x42 ∧
    memRead (mk 0 0 [0x41, 0x42, 0x43] []).buf 2 = some 0x43 := by decide
theorem witness_StreamingCommandsFrame : exec .ckseed State.reset = .next State.reset ∧
    exec (.ckbyte 0) (mk 0 0 [] []) = .next (mk 0 0 [] []) := ⟨rfl, rfl⟩
theorem witness_BlockCommandsFrame : exec (.ckchunk 0) (mk 0 0 [] []) = .next (mk 0xFFFF 0 [] []) := rfl
theorem witness_ResultDependsOnlyOnTheRange : (2 : Nat) ≤ 1024 ∧ 2 ≤ (mk 1 2 [0x41, 0x42, 0x43] []).buf.size ∧
    2 ≤ (mk 3 4 [0x41, 0x42] []).buf.size ∧ ∀ i, i < 2 →
    memRead (mk 1 2 [0x41, 0x42, 0x43] []).buf i = memRead (mk 3 4 [0x41, 0x42] []).buf i := by decide
theorem witness_ResultDependsOnlyOnTheRange_header : 17 ≤ (mk 1 2 (List.replicate 17 0x41) []).buf.size ∧
    17 ≤ (mk 3 4 (List.replicate 18 0x41) []).buf.size ∧ ∀ i, i < 17 →
    memRead (mk 1 2 (List.replicate 17 0x41) []).buf i = memRead (mk 3 4 (List.replicate 18 0x41) []).buf i := by decide
theorem witness_StreamComputesTheChecksum : (mk 0 0 [] [.cmd 0x1000, .cmd 0x2041, .cmd 0x3000]).pending =
    .cmd 0x1000 :: (([0x41] : List Byte).map (fun b => .cmd (0x2000 ||| b.setWidth 16)) ++ .cmd 0x3000 :: []) := by decide
theorem witness_BlockCommandEqualsStream : (1 : Nat) ≤ 1024 ∧ 1 ≤ (mk 0 0 [0x41] []).buf.size ∧
    ([0x41] : List Byte).length = 1 ∧ (∀ i, i < 1 → memRead (mk 0 0 [0x41] []).buf i = ([0x41] : List Byte)[i]?) ∧
    17 ≤ (mk 0 0 (List.replicate 17 0) []).buf.size := by decide
theorem witness_EveryStepKeepsTheBufferCanonical : (mk 0 0 [0x41, 0x42] [.host (.write 1 0x43)]).inv = true ∧
    step (mk 0 0 [0x41, 0x42] [.host (.write 1 0x43)]) = .next (mk 0 0 [0x41, 0x43] []) := ⟨by decide, rfl⟩
theorem witness_CommandsNeverWriteTheBuffer : (mk 0 0 [0x41] [.cmd 0x1000]).pending = [.cmd 0x1000] ∧
    step (mk 0 0 [0x41] [.cmd 0x1000]) = .next (mk 0xFFFF 0 [0x41] []) := ⟨by decide, rfl⟩
theorem witness_OnlyFourCommandsWriteCrc : step (mk 0 0 [] [.cmd 0x1000]) = .next (mk 0xFFFF 0 [] []) ∧
    (mk 0xFFFF 0 [] []).crc ≠ (mk 0 0 [] [.cmd 0x1000]).crc := ⟨rfl, by decide⟩
theorem witness_OnlyFinalisersWriteRes : step (mk 0 0 [] [.cmd 0x3000]) = .next (mk 0 0xFFFF [] []) ∧
    (mk 0 0xFFFF [] []).res ≠ (mk 0 0 [] [.cmd 0x3000]).res := ⟨rfl, by decide⟩
theorem witness_SpecifiedResStaysSpecified : (mk 0 0 [] [.cmd 0x1000]).resSpecified = true ∧
    step (mk 0 0 [] [.cmd 0x1000]) = .next (mk 0xFFFF 0 [] []) := ⟨by decide, rfl⟩
theorem witness_PortReadsChangeNothing : (mk 0 0 [] []).resSpecified = true := by decide
theorem witness_ResReadReturnsTheLatestResult_ckfin :
    (mk 0xCE10 0 [] [.cmd 0x3000, .cmd 0x1000, .cmd 0x2041, .host .readCrc, .host .readRes]).pending =
      .cmd 0x3000 :: ([.cmd 0x1000, .cmd 0x2041, .host .readCrc] ++ .host .readRes :: []) ∧
    decode 0x3000 = .ok .ckfin ∧ (0x2000 ||| (0x41 : Byte).setWidth 16 : Word) = 0x2041 ∧
    ∃ t, runSteps 4 (mk 0xCE10 0 [] [.cmd 0x3000, .cmd 0x1000, .cmd 0x2041, .host .readCrc, .host .readRes]) = .next t :=
  ⟨by decide, by decide, by decide, _, rfl⟩
/-- V13: the chunk "AB" of "ABC". -/
theorem witness_ResReadReturnsTheLatestResult_ckchunk : decode 0x5002 = .ok (.ckchunk 2) ∧
    2 ≤ (mk 0 0 [0x41, 0x42, 0x43] []).buf.size ∧ ([0x41, 0x42] : List Byte).length = 2 ∧
    (∀ a, a < 2 → memRead (mk 0 0 [0x41, 0x42, 0x43] []).buf a = ([0x41, 0x42] : List Byte)[a]?) ∧
    checksum16 [0x41, 0x42] 2 = some 0xEF31 := by decide +kernel
/-- V20: the header "A.TXT", length 100. -/
theorem witness_ResReadReturnsTheLatestResult_ckhdr : decode 0x4000 = .ok .ckhdr ∧ checksum16
    [0x41, 0x2E, 0x54, 0x58, 0x54, 0, 0, 0, 0, 0, 0, 0, 0, 0x64, 0, 0, 0] 17 = some 0x0873 := by decide +kernel
theorem witness_UnspecifiedResReadsAreDraws :
    (State.reset.withPending [.host .readRes, .host .readRes]).resSpecified = false ∧
    (State.reset.withPending [.host .readRes, .host .readRes]).pending = [.host .readRes, .host .readRes] := by decide
theorem witness_HostWriteChangesOneByte : 1 < (mk 0 0 [0x41, 0x42] []).buf.size ∧ 0 ≠ 1 ∧
    (mk 0 0 [0x41, 0x42] []).buf.size ≤ 2 := by decide
theorem witness_UnwrittenBytesAreFreeValues : (1023 : Nat) < 1024 ∧ (1024 : Nat) ≤ 1024 := by decide
theorem witness_UnwrittenBytesAreFreeValues_prepared : prepared (.ckchunk 2) (mk 0 0 [0x41, 0x42] []) = true ∧
    prepared (.ckchunk 2) (presentBuffer 2 State.reset) = false := by decide
theorem witness_CommandCompletesOrIsRefused_accepted : accepted (.ckchunk 1024) (presentBuffer 1024 State.reset) = true ∧
    exec .ckseed State.reset = .next State.reset := ⟨by decide, rfl⟩
theorem witness_ResultIsStoredLittleEndian : 3 + 2 ≤ (mk 0 0 [0x41, 0x42, 0x43, 0, 0] []).buf.size ∧
    (mk 0 0 [0x41, 0x42, 0x43, 0, 0] []).resSpecified = true ∧ 0 ≠ 3 ∧ 0 ≠ 3 + 1 := by decide
theorem witness_ResultIsStoredLittleEndian_unspecified : 0 + 2 ≤ (presentBuffer 2 State.reset).buf.size ∧
    (presentBuffer 2 State.reset).resSpecified = false := by decide
theorem witness_PutOutsideTheBufferFaults : (mk 0 0 [0x41, 0x42, 0x43, 0] []).buf.size < 3 + 2 := by decide
theorem witness_RecomputationAfterTheStore : (3 : Nat) ≤ 1024 ∧ 3 + 2 ≤ 1024 ∧
    3 + 2 ≤ (mk 0 0 [0x41, 0x42, 0x43, 0, 0] []).buf.size ∧ 19 ≤ (mk 0 0 (List.replicate 19 0) []).buf.size := by decide
/-- "A.TXT" (S3). -/
theorem witness_PreparedHeaderFrameIsConsistent : ([0x41, 0x2E, 0x54, 0x58, 0x54] : List Byte).length ≤ 12 ∧
    ∀ b ∈ ([0x41, 0x2E, 0x54, 0x58, 0x54] : List Byte), b ≠ 0 := by decide
theorem witness_PreparedChunkFrameIsConsistent : 1 ≤ (List.replicate 1024 (0 : Byte)).length ∧
    (List.replicate 1024 (0 : Byte)).length ≤ 1024 := by
  rw [List.length_replicate]; omega
/-- P7's chunk frame, and the same frame with one checksum bit changed. -/
theorem witness_PreparedChunkFrameIsConsistent_frames :
    chunkConsistent [0x41, 0x42, 0x43, 0x9F, 0x2F] = true ∧ chunkConsistent [0x41, 0x42, 0x43, 0x9E, 0x2F] = false ∧
    headerConsistent [0x41, 0x2E, 0x54, 0x58, 0x54, 0, 0, 0, 0, 0, 0, 0, 0, 0x64, 0, 0, 0, 0x08, 0x73] = false := by
  decide +kernel
theorem witness_SourceIsReadInChunks : (List.replicate 2500 (0 : Byte)).length = 2500 :=
  List.length_replicate
theorem witness_AcknowledgmentByteClasses : (2 : Byte) ≠ 0 ∧ (2 : Byte) ≠ 1 := by decide
theorem witness_FrameIsWrittenAtMostSixTimes : (5 : Nat) ≤ 5 ∧ (5 : Byte) ≠ 0 ∧ (5 : Byte) ≠ 1 := by decide

end Sys2Proof.Tests
end

section
/-! The block commands read nothing but the range (00_scope.md R4). -/

namespace Sys2Proof.Machine

/-- `CKHDR` on a long enough buffer is the shared effect over the 17 bytes of the header (R100). -/
theorem execCkhdr_accepted {s : State} (h : Config.hdrLen ≤ s.buf.size) :
    execCkhdr s = .next (absorbBuffer Config.hdrLen s) := by
  unfold execCkhdr
  rw [if_neg (Nat.not_lt.mpr h)]

/-- Two states whose input is the same are left with the same registers by the block commands' shared effect. -/
theorem absorbBuffer_registers_congr {n : Nat} {s s' : State} (h : blockBytes s.buf n = blockBytes s'.buf n) :
    (absorbBuffer n s).crc = (absorbBuffer n s').crc ∧ (absorbBuffer n s).res = (absorbBuffer n s').res := by
  simp [h]

/-- Settles O36: both block commands complete with the shared effect, and equal reads below `n` give it equal input. -/
theorem resultDependsOnlyOnTheRange : Obligations.ResultDependsOnlyOnTheRange := by
  unfold Obligations.ResultDependsOnlyOnTheRange
  constructor
  · intro s s' n hmax hn hn' hread
    have hinput : blockBytes s.buf n = blockBytes s'.buf n := blockBytes_congr hn hn' hread
    exact ⟨_, _, execCkchunk_accepted hmax hn, execCkchunk_accepted hmax hn', absorbBuffer_registers_congr hinput⟩
  · intro s s' hn hn' hread
    have hinput : blockBytes s.buf 17 = blockBytes s'.buf 17 := blockBytes_congr hn hn' hread
    exact ⟨_, _, execCkhdr_accepted hn, execCkhdr_accepted hn', absorbBuffer_registers_congr hinput⟩

end Sys2Proof.Machine
end

section
/-! Finalisation bit by bit (R74), and the checksum of length 0 (R76). -/

namespace Sys2Proof.Machine

/-- The bits of the low-byte mask that the exchange of bytes uses. -/
theorem getLsbD_lowByteMask (i : Nat) : (0xFF : Word).getLsbD i = decide (i < 8) := by
  have hmask : (0xFF : Word) = BitVec.ofNat 16 (2 ^ 8 - 1) := rfl
  rw [hmask, BitVec.getLsbD_ofNat, Nat.testBit_two_pow_sub_one, ← Bool.decide_and, decide_eq_decide]
  omega

/-- Exchanging the two bytes moves bit `i + 8` (mod 16) to bit `i`. -/
theorem getLsbD_bswap16 (a : Word) {i : Nat} (hi : i < 16) :
    (bswap16 a).getLsbD i = a.getLsbD ((i + 8) % 16) := by
  rw [bswap16, BitVec.getLsbD_or, BitVec.getLsbD_and, BitVec.getLsbD_shiftLeft, BitVec.getLsbD_ushiftRight,
    getLsbD_lowByteMask]
  by_cases hlow : i < 8
  · have hsource : (i + 8) % 16 = 8 + i := by omega
    simp [hlow, hsource]
  · have hsource : (i + 8) % 16 = i - 8 := by omega
    simp [hlow, hi, hsource]

/-- Exchange of the bytes and inversion commute: a moved bit is inverted as well before as after the move. -/
theorem bswap16_not (a : Word) : bswap16 (~~~a) = ~~~bswap16 a := by
  apply BitVec.eq_of_getLsbD_eq
  intro i hi
  have hsource : (i + 8) % 16 < 16 := Nat.mod_lt _ (by decide)
  rw [getLsbD_bswap16 _ hi, BitVec.getLsbD_not, BitVec.getLsbD_not, getLsbD_bswap16 a hi]
  simp only [hi, hsource]

/-- Bit `i` of the finalised register is the inverse of the register's bit `i + 8` (mod 16). -/
theorem getLsbD_finalise (c : Word) {i : Nat} (hi : i < 16) :
    (finalise c).getLsbD i = !c.getLsbD ((i + 8) % 16) := by
  rw [finalise, bswap16_not, BitVec.getLsbD_not, getLsbD_bswap16 c hi, decide_eq_true hi, Bool.true_and]

/-- Settles O9: the bits from `getLsbD_finalise`, the formula by definition, the commutation from `bswap16_not`. -/
theorem finaliseInvertsAndExchangesBytes : Obligations.FinaliseInvertsAndExchangesBytes := by
  unfold Obligations.FinaliseInvertsAndExchangesBytes
  refine ⟨?bits, ?formula, bswap16_not, ?examples⟩
  case bits => exact fun c _ hi => getLsbD_finalise c hi
  case formula => exact fun _ => rfl
  case examples => decide

/-- Settles O11: the zero-length case of `checksum16` is `checksum16_zero`, whatever the buffer. -/
theorem zeroLengthChecksumIsZero : Obligations.ZeroLengthChecksumIsZero := checksum16_zero

end Sys2Proof.Machine
end

section
/-! The acknowledgment byte (60_exceptions.md R119). -/

namespace Sys2Proof.Machine

@[simp] theorem ackOf_zero : ackOf 0 = .accepted := rfl

@[simp] theorem ackOf_one : ackOf 1 = .checksumMismatch := rfl

theorem ackOf_fatal {b : Byte} (h0 : b ≠ 0) (h1 : b ≠ 1) : ackOf b = .fatal b := by
  rw [ackOf, if_neg h0, if_neg h1]

/-- The bytes other than 0 and 1, by their value. -/
theorem byte_ne_zero_and_ne_one_iff (b : Byte) : (b ≠ 0 ∧ b ≠ 1) ↔ 2 ≤ b.toNat ∧ b.toNat ≤ 255 := by
  have hbound : b.toNat < 256 := b.isLt
  have hzero : b = 0 ↔ b.toNat = 0 := BitVec.toNat_inj.symm
  have hone : b = 1 ↔ b.toNat = 1 := BitVec.toNat_inj.symm
  rw [Ne, Ne, hzero, hone]
  omega

/-- Settles O59: the three branches of `ackOf`, and the bytes its last branch covers. -/
theorem acknowledgmentByteClasses : Obligations.AcknowledgmentByteClasses :=
  ⟨ackOf_zero, ackOf_one, fun _ h0 h1 => ackOf_fatal h0 h1, byte_ne_zero_and_ne_one_iff⟩

end Sys2Proof.Machine
end

section
/-! Sending one frame (60_exceptions.md R120): what one acknowledgment does, and from that what a run of mismatches does and
which writes are possible at all. -/

namespace Sys2Proof.Machine

variable {frame acks : List Byte} {retries : Nat}

@[simp] theorem sendFrame_nil : sendFrame frame retries [] = (.waiting, [frame]) := rfl

theorem sendFrame_accepted {a : Byte} (h : ackOf a = .accepted) :
    sendFrame frame retries (a :: acks) = (.success, [frame]) := by
  simp only [sendFrame, h]

theorem sendFrame_fatal {a code : Byte} (h : ackOf a = .fatal code) :
    sendFrame frame retries (a :: acks) = (.peerError code, [frame]) := by
  simp only [sendFrame, h]

/-- A mismatch after the last retry ends the sending. -/
theorem sendFrame_mismatch_last {a : Byte} (h : ackOf a = .checksumMismatch) (hr : Config.maxRetries ≤ retries) :
    sendFrame frame retries (a :: acks) = (.tooManyChecksumErrors, [frame]) := by
  simp only [sendFrame, h, if_pos (Nat.lt_succ_of_le hr)]

/-- A mismatch with a retry left is one more write before the rest. -/
theorem sendFrame_mismatch_retry {a : Byte} (h : ackOf a = .checksumMismatch) (hr : retries < Config.maxRetries) :
    sendFrame frame retries (a :: acks) =
      ((sendFrame frame (retries + 1) acks).1, frame :: (sendFrame frame (retries + 1) acks).2) := by
  simp only [sendFrame, h, if_neg (Nat.not_lt.mpr (Nat.succ_le_of_lt hr))]

/-- `k` mismatches that all find a retry left are `k` writes before the rest. -/
theorem sendFrame_replicate_mismatch (k : Nat) (hr : retries + k ≤ Config.maxRetries) :
    sendFrame frame retries (List.replicate k 1 ++ acks) =
      ((sendFrame frame (retries + k) acks).1, List.replicate k frame ++ (sendFrame frame (retries + k) acks).2) := by
  induction k generalizing retries with
  | zero => rfl
  | succ k ih =>
    have hretry : retries < Config.maxRetries := by omega
    have hrest : retries + 1 + k ≤ Config.maxRetries := by omega
    have hcount : retries + 1 + k = retries + (k + 1) := by omega
    rw [List.replicate_succ, List.cons_append, sendFrame_mismatch_retry ackOf_one hretry, ih hrest, hcount,
      List.replicate_succ, List.cons_append]

/-- An ending that is the same at every retry count is reached after `k` mismatches with `k + 1` writes. -/
theorem sendFrame_replicate_mismatch_of_single {k : Nat} {result : SendResult} (hk : k ≤ Config.maxRetries)
    (hend : sendFrame frame k acks = (result, [frame])) :
    sendFrame frame 0 (List.replicate k 1 ++ acks) = (result, List.replicate (k + 1) frame) := by
  have hrun := sendFrame_replicate_mismatch (frame := frame) (acks := acks) (retries := 0) k (by omega)
  rw [hrun, Nat.zero_add, hend, List.replicate_succ']

/-- Whatever the acknowledgments, the writes are one and then at most the retries left, all of the same frame. -/
theorem sendFrame_writes (frame acks : List Byte) (retries : Nat) :
    ∃ k, k ≤ Config.maxRetries - retries ∧ (sendFrame frame retries acks).2 = List.replicate (k + 1) frame := by
  induction acks generalizing retries with
  | nil => exact ⟨0, Nat.zero_le _, by rw [sendFrame_nil]; rfl⟩
  | cons a rest ih =>
    cases h : ackOf a with
    | accepted => exact ⟨0, Nat.zero_le _, by rw [sendFrame_accepted h]; rfl⟩
    | fatal code => exact ⟨0, Nat.zero_le _, by rw [sendFrame_fatal h]; rfl⟩
    | checksumMismatch =>
      rcases Nat.lt_or_ge retries Config.maxRetries with hretry | hlast
      · obtain ⟨k, hk, hwrites⟩ := ih (retries + 1)
        exact ⟨k + 1, by omega, by rw [sendFrame_mismatch_retry h hretry, hwrites, ← List.replicate_succ]⟩
      · exact ⟨0, Nat.zero_le _, by rw [sendFrame_mismatch_last h hlast]; rfl⟩

/-- Settles O60: the bound and the identity of the writes from `sendFrame_writes`, the endings from
`sendFrame_replicate_mismatch_of_single`. -/
theorem frameIsWrittenAtMostSixTimes : Obligations.FrameIsWrittenAtMostSixTimes := by
  unfold Obligations.FrameIsWrittenAtMostSixTimes
  refine ⟨?writes, ?sixth, ?success, ?fatal⟩
  case writes =>
    intro frame acks
    obtain ⟨k, hk, hwrites⟩ := sendFrame_writes frame acks 0
    have hbound : k ≤ 5 := hk
    rw [hwrites, List.length_replicate]
    exact ⟨by omega, by omega, fun _ hf => List.eq_of_mem_replicate hf⟩
  case sixth =>
    intro frame more
    have hacks : List.replicate 6 (1 : Byte) ++ more = List.replicate 5 1 ++ 1 :: more := rfl
    rw [hacks]
    exact sendFrame_replicate_mismatch_of_single (Nat.le_refl 5) (sendFrame_mismatch_last ackOf_one (Nat.le_refl 5))
  case success =>
    intro frame more k hk
    exact sendFrame_replicate_mismatch_of_single hk (sendFrame_accepted ackOf_zero)
  case fatal =>
    intro frame more code k hk h0 h1
    exact sendFrame_replicate_mismatch_of_single hk (sendFrame_fatal (ackOf_fatal h0 h1))

end Sys2Proof.Machine
end

section
/-! The decoder and the encoder as arithmetic on the value of a word (30_encoding.md R50 to R56): what every word decodes to,
said once by value, and from that the two directions of the round trip. -/

namespace Sys2Proof

theorem opField_toNat (w : Word) : (opField w).toNat = w.toNat / 4096 := by
  have hw : w.toNat < 65536 := w.isLt
  simp only [opField, BitVec.extractLsb'_toNat, Nat.shiftRight_eq_div_pow]
  omega

theorem argField_toNat (w : Word) : (argField w).toNat = w.toNat % 4096 := by
  simp [argField]

theorem argHigh_argField_toNat (w : Word) : (argHigh (argField w)).toNat = w.toNat % 4096 / 256 := by
  simp only [argHigh, BitVec.extractLsb'_toNat, argField_toNat, Nat.shiftRight_eq_div_pow]
  omega

theorem argByte_argField (w : Word) : argByte (argField w) = BitVec.ofNat 8 w.toNat := by
  apply BitVec.eq_of_toNat_eq
  simp only [argByte, BitVec.extractLsb'_toNat, argField_toNat, Nat.shiftRight_zero, BitVec.toNat_ofNat]
  omega

/-- What a word decodes to, by its value. -/
theorem decode_eq (w : Word) : decode w =
    if w.toNat = 0x1000 then .ok .ckseed
    else if w.toNat / 256 = 0x20 then .ok (.ckbyte (BitVec.ofNat 8 w.toNat))
    else if w.toNat = 0x3000 then .ok .ckfin
    else if w.toNat = 0x4000 then .ok .ckhdr
    else if w.toNat / 4096 = 5 then .ok (.ckchunk (w.toNat % 4096))
    else .error (.illegalCommand w) := by
  have hop : ∀ v : BitVec 4, opField w = v ↔ w.toNat / 4096 = v.toNat := fun v => by
    rw [← BitVec.toNat_inj, opField_toNat]
  have harg : argField w = 0#12 ↔ w.toNat % 4096 = 0 := by
    rw [← BitVec.toNat_inj, argField_toNat]; rfl
  have hhigh : argHigh (argField w) = 0#4 ↔ w.toNat % 4096 / 256 = 0 := by
    rw [← BitVec.toNat_inj, argHigh_argField_toNat]; rfl
  have hseed : (w.toNat / 4096 = 1 ∧ w.toNat % 4096 = 0) ↔ w.toNat = 0x1000 := by omega
  have hbyte : (w.toNat / 4096 = 2 ∧ w.toNat % 4096 / 256 = 0) ↔ w.toNat / 256 = 0x20 := by omega
  have hfin : (w.toNat / 4096 = 3 ∧ w.toNat % 4096 = 0) ↔ w.toNat = 0x3000 := by omega
  have hhdr : (w.toNat / 4096 = 4 ∧ w.toNat % 4096 = 0) ↔ w.toNat = 0x4000 := by omega
  simp only [decode, BitVec.ofNat_eq_ofNat, hop, harg, hhigh, argByte_argField, argField_toNat, BitVec.toNat_ofNat,
    Nat.reducePow, Nat.reduceMod, hseed, hbyte, hfin, hhdr]

/-- An operand below the pattern's lowest bit is added to it. -/
theorem pattern_or_toNat {k : Nat} (p : Nat) {x : Word} (hk : k ≤ 12) (hp : p < 16) (hx : x.toNat < 2 ^ k) :
    (BitVec.ofNat 16 (p * 2 ^ 12) ||| x).toNat = p * 2 ^ 12 + x.toNat := by
  have hlow : x.toNat < 2 ^ 12 := lt_of_lt_of_le hx (Nat.pow_le_pow_right (by decide) hk)
  have hpattern : p * 2 ^ 12 % 2 ^ 16 = 2 ^ 12 * p := by omega
  rw [BitVec.toNat_or, BitVec.toNat_ofNat, hpattern, ← Nat.two_pow_add_eq_or_of_lt hlow, Nat.mul_comm]

@[simp] theorem encode_ckbyte_toNat (b : Byte) : (encode (.ckbyte b)).toNat = 0x2000 + b.toNat := by
  have hb : b.toNat < 2 ^ 8 := b.isLt
  have hwide : (b.setWidth 16).toNat = b.toNat := by simp; omega
  have hor := pattern_or_toNat (k := 8) 2 (x := b.setWidth 16) (by decide) (by decide) (hwide ▸ hb)
  rw [hwide] at hor
  exact hor

theorem encode_ckchunk_toNat {n : Nat} (hn : n < 4096) : (encode (.ckchunk n)).toNat = 0x5000 + n := by
  have hwide : ((BitVec.ofNat 12 n).setWidth 16).toNat = n := by simp; omega
  have hor := pattern_or_toNat (k := 12) 5 (x := (BitVec.ofNat 12 n).setWidth 16) (by decide) (by decide)
    (by omega)
  rw [hwide] at hor
  exact hor

/-- Decoding the word of a well-formed command gives the command back. -/
theorem decode_encode {i : Instr} (hi : i.wellFormed = true) : decode (encode i) = .ok i := by
  cases i with
  | ckseed => rfl
  | ckfin => rfl
  | ckhdr => rfl
  | ckbyte b =>
    have hb : b.toNat < 256 := b.isLt
    have hvalue := encode_ckbyte_toNat b
    have hbyte : BitVec.ofNat 8 (0x2000 + b.toNat) = b := by
      apply BitVec.eq_of_toNat_eq
      rw [BitVec.toNat_ofNat]
      omega
    rw [decode_eq, if_neg (by omega), if_pos (by omega), hvalue, hbyte]
  | ckchunk n =>
    have hn : n < 4096 := of_decide_eq_true hi
    have hvalue := encode_ckchunk_toNat hn
    rw [decode_eq, if_neg (by omega), if_neg (by omega), if_neg (by omega), if_neg (by omega), if_pos (by omega),
      hvalue]
    congr 2
    omega

/-- A word that decodes is the word of its command, which is well-formed. -/
theorem encode_of_decode {w : Word} {i : Instr} (h : decode w = .ok i) : encode i = w ∧ i.wellFormed = true := by
  have hw : w.toNat < 65536 := w.isLt
  rw [decode_eq] at h
  split_ifs at h with hseed hbyte hfin hhdr hchunk <;> obtain rfl := Except.ok.inj h
  · exact ⟨BitVec.eq_of_toNat_eq hseed.symm, rfl⟩
  · refine ⟨BitVec.eq_of_toNat_eq ?_, rfl⟩
    rw [encode_ckbyte_toNat, BitVec.toNat_ofNat]
    omega
  · exact ⟨BitVec.eq_of_toNat_eq hfin.symm, rfl⟩
  · exact ⟨BitVec.eq_of_toNat_eq hhdr.symm, rfl⟩
  · have hn : w.toNat % 4096 < 4096 := Nat.mod_lt _ (by decide)
    refine ⟨BitVec.eq_of_toNat_eq ?_, decide_eq_true hn⟩
    rw [encode_ckchunk_toNat hn]
    omega

end Sys2Proof

namespace Sys2Proof.Machine

/-- Settles O14: each command's word by its value, and what that value decodes to. -/
theorem decodeEncodeIsIdentity : Obligations.DecodeEncodeIsIdentity := fun _ hi => decode_encode hi

/-- Settles O15: each branch of the decoder by value. -/
theorem encodeDecodeIsIdentity : Obligations.EncodeDecodeIsIdentity := fun _ _ h => encode_of_decode h

end Sys2Proof.Machine
end

section
/-! The opcode map (30_encoding.md R52), the illegal words (R56) and the legal ranges (R54), from the decoder by value. -/

namespace Sys2Proof

/-- The mnemonic of a command is its row's. -/
theorem opcodeRow_mnemonic (i : Instr) : (opcodeRow i).mnemonic = i.mnemonic := by
  cases i <;> rfl

theorem opcodeRow_mem (i : Instr) : opcodeRow i ∈ opcodeMap := by
  cases i <;> simp [opcodeRow, opcodeMap]

/-- The word of a well-formed command matches the command's row. -/
theorem encode_and_mask {i : Instr} (hi : i.wellFormed = true) :
    encode i &&& (opcodeRow i).mask = (opcodeRow i).pattern := by
  have hmatch : (opcodeRow i).matchesWord (encode i) = true := by
    cases i with
    | ckseed => exact (Laws.EncodingMatchesRow.ckseed hi).1
    | ckbyte b => exact (Laws.EncodingMatchesRow.ckbyte b hi).1
    | ckfin => exact (Laws.EncodingMatchesRow.ckfin hi).1
    | ckhdr => exact (Laws.EncodingMatchesRow.ckhdr hi).1
    | ckchunk n => exact (Laws.EncodingMatchesRow.ckchunk n hi).1
  exact beq_iff_eq.mp hmatch

theorem and_fullMask (w : Word) : w &&& 0xFFFF = w := BitVec.and_allOnes

/-- Masking the low `k` bits away leaves the multiple of `2 ^ k` below. -/
theorem and_highMask_toNat (w : Word) (k : Nat) :
    (w &&& BitVec.allOnes 16 <<< k).toNat = w.toNat / 2 ^ k * 2 ^ k := by
  have hle : w.toNat / 2 ^ k * 2 ^ k ≤ w.toNat := Nat.div_mul_le_self _ _
  rw [← BitVec.shiftLeft_ushiftRight, BitVec.toNat_shiftLeft, BitVec.toNat_ushiftRight, Nat.shiftRight_eq_div_pow,
    Nat.shiftLeft_eq, Nat.mod_eq_of_lt (lt_of_le_of_lt hle w.isLt)]

/-- A word matches a row exactly when it decodes to a command of that row. -/
theorem and_mask_eq_pattern_iff {w : Word} {r : OpcodeRow} (hr : r ∈ opcodeMap) :
    (w &&& r.mask) = r.pattern ↔ ∃ i, decode w = .ok i ∧ opcodeRow i = r := by
  constructor
  · intro hmatch
    simp only [opcodeMap, List.mem_cons, List.not_mem_nil, or_false] at hr
    rcases hr with rfl | rfl | rfl | rfl | rfl
    · exact ⟨.ckseed, by rw [← and_fullMask w, hmatch]; rfl, rfl⟩
    · have hvalue : w.toNat / 2 ^ 8 * 2 ^ 8 = 0x2000 := by
        rw [← and_highMask_toNat]; exact congrArg BitVec.toNat hmatch
      exact ⟨.ckbyte _, by rw [decode_eq, if_neg (by omega), if_pos (by omega)], rfl⟩
    · exact ⟨.ckfin, by rw [← and_fullMask w, hmatch]; rfl, rfl⟩
    · exact ⟨.ckhdr, by rw [← and_fullMask w, hmatch]; rfl, rfl⟩
    · have hvalue : w.toNat / 2 ^ 12 * 2 ^ 12 = 0x5000 := by
        rw [← and_highMask_toNat]; exact congrArg BitVec.toNat hmatch
      exact ⟨.ckchunk _, by
        rw [decode_eq, if_neg (by omega), if_neg (by omega), if_neg (by omega), if_neg (by omega), if_pos (by omega)], rfl⟩
  · rintro ⟨i, hdecode, rfl⟩
    obtain ⟨rfl, hi⟩ := encode_of_decode hdecode
    exact encode_and_mask hi

/-- A word is illegal exactly when it decodes to no command. -/
theorem decode_eq_illegal_iff {w : Word} : decode w = .error (.illegalCommand w) ↔ ∀ i, decode w ≠ .ok i := by
  cases h : decode w with
  | ok i => simp
  | error e => simp [Machine.decode_error h]

/-- The illegal words by value. -/
theorem decode_eq_illegal_iff_toNat (w : Word) : decode w = .error (.illegalCommand w) ↔
    w.toNat ≠ 0x1000 ∧ w.toNat / 256 ≠ 0x20 ∧ w.toNat ≠ 0x3000 ∧ w.toNat ≠ 0x4000 ∧ w.toNat / 4096 ≠ 5 := by
  rw [decode_eq]
  split_ifs <;> simp_all

/-- The words that decode, by value. -/
theorem exists_decode_eq_ok_iff (w : Word) : (∃ i, decode w = .ok i) ↔
    (w.toNat = 0x1000 ∨ w.toNat / 256 = 0x20 ∨ w.toNat = 0x3000 ∨ w.toNat = 0x4000 ∨ w.toNat / 4096 = 5) := by
  have hillegal := decode_eq_illegal_iff.symm.trans (decode_eq_illegal_iff_toNat w)
  rw [← not_iff_not, not_exists]
  exact hillegal.trans (by omega)

/-- A command is legal exactly when its word stands below the lengths above 1024. -/
theorem legal_iff_of_decode {w : Word} {i : Instr} (h : decode w = .ok i) : i.legal = true ↔ w.toNat < 0x5401 := by
  obtain ⟨rfl, hi⟩ := encode_of_decode h
  cases i with
  | ckseed => decide
  | ckfin => decide
  | ckhdr => decide
  | ckbyte b =>
    have hb : b.toNat < 256 := b.isLt
    have hvalue := encode_ckbyte_toNat b
    exact ⟨fun _ => by omega, fun _ => rfl⟩
  | ckchunk n =>
    rw [encode_ckchunk_toNat (of_decide_eq_true hi), Instr.legal, decide_eq_true_eq, Config.chunkMax]
    omega

end Sys2Proof

namespace Sys2Proof.Machine

/-- Settles O16: a match is a decoding (`and_mask_eq_pattern_iff`), and decoding has one answer. -/
theorem opcodeMapDecidesDecoding : Obligations.OpcodeMapDecidesDecoding := by
  unfold Obligations.OpcodeMapDecidesDecoding
  refine ⟨?decodes, ?illegal, ?disjoint⟩
  case decodes =>
    intro w r hr hmatch
    obtain ⟨i, hdecode, rfl⟩ := (and_mask_eq_pattern_iff hr).mp hmatch
    exact ⟨i, hdecode, (opcodeRow_mnemonic i).symm⟩
  case illegal =>
    intro w hnone
    refine decode_eq_illegal_iff.mpr fun i hdecode => ?_
    exact hnone _ (opcodeRow_mem i) ((and_mask_eq_pattern_iff (opcodeRow_mem i)).mpr ⟨i, hdecode, rfl⟩)
  case disjoint =>
    intro w r r' hr hr' hmatch hmatch'
    obtain ⟨i, hdecode, rfl⟩ := (and_mask_eq_pattern_iff hr).mp hmatch
    obtain ⟨i', hdecode', rfl⟩ := (and_mask_eq_pattern_iff hr').mp hmatch'
    rw [hdecode] at hdecode'
    rw [Except.ok.inj hdecode']

/-- Settles O17: the values that no branch of the decoder takes are the listed ones. -/
theorem illegalWordsAreTheListedOnes : Obligations.IllegalWordsAreTheListedOnes := by
  unfold Obligations.IllegalWordsAreTheListedOnes
  refine ⟨fun w => ?_, rfl, rfl⟩
  have hw : w.toNat < 65536 := w.isLt
  rw [decode_eq_illegal_iff_toNat]
  omega

/-- Settles O18: the words that decode by value, and among them those of legal commands. -/
theorem legalWordsAreTheListedRanges : Obligations.LegalWordsAreTheListedRanges := by
  have hlegal : ∀ w b, (∃ i, decode w = .ok i ∧ i.legal = b) ↔
      (∃ i, decode w = .ok i) ∧ decide (w.toNat < 0x5401) = b := fun w b => by
    rw [← exists_and_right]
    refine exists_congr fun i => and_congr_right fun hdecode => ?_
    rw [Bool.eq_iff_iff.mpr ((legal_iff_of_decode hdecode).trans decide_eq_true_iff.symm)]
  unfold Obligations.LegalWordsAreTheListedRanges
  refine ⟨fun w => ?_, fun w => ?_, rfl, rfl⟩
  · rw [hlegal, exists_decode_eq_ok_iff, decide_eq_true_eq]
    omega
  · rw [hlegal, exists_decode_eq_ok_iff, decide_eq_false_iff_not]
    omega

end Sys2Proof.Machine
end

section
/-! What a command does and when it is refused, said once for all five (30_encoding.md R57; 60_exceptions.md R111 to R113), and
what a step does with the next host action. -/

namespace Sys2Proof.Machine

/-- What an accepted command leaves behind. -/
def effect (i : Instr) (s : State) : State :=
  match i with
  | .ckseed => s.setCrc Config.seed
  | .ckbyte b => s.setCrc (byteStep s.crc b)
  | .ckfin => s.setRes (finalise s.crc)
  | .ckhdr => absorbBuffer Config.hdrLen s
  | .ckchunk n => absorbBuffer n s

@[simp] theorem effect_buf (i : Instr) (s : State) : (effect i s).buf = s.buf := by cases i <;> rfl
@[simp] theorem effect_pending (i : Instr) (s : State) : (effect i s).pending = s.pending := by cases i <;> rfl
@[simp] theorem effect_reads (i : Instr) (s : State) : (effect i s).reads = s.reads := by cases i <;> rfl
@[simp] theorem effect_draws (i : Instr) (s : State) : (effect i s).draws = s.draws := by cases i <;> rfl

@[simp] theorem exec_ckseed (s : State) : exec .ckseed s = .next (s.setCrc Config.seed) := rfl
@[simp] theorem exec_ckbyte (b : Byte) (s : State) : exec (.ckbyte b) s = .next (s.setCrc (byteStep s.crc b)) := rfl
@[simp] theorem exec_ckfin (s : State) : exec .ckfin s = .next (s.setRes (finalise s.crc)) := rfl

theorem exec_ckhdr_short {s : State} (h : s.buf.size < 17) : exec .ckhdr s = .refused (.bufferShort 17 s.buf.size) :=
  if_pos h

theorem exec_ckchunk_range {n : Nat} {s : State} (h : 1024 < n) : exec (.ckchunk n) s = .refused (.lengthRange n) :=
  if_pos h

theorem exec_ckchunk_short {n : Nat} {s : State} (hn : n ≤ 1024) (h : s.buf.size < n) :
    exec (.ckchunk n) s = .refused (.bufferShort n s.buf.size) :=
  (if_neg (Nat.not_lt.mpr hn)).trans (if_pos h)

theorem accepted_ckhdr {s : State} : accepted .ckhdr s = true ↔ 17 ≤ s.buf.size := decide_eq_true_iff

theorem accepted_ckchunk {n : Nat} {s : State} :
    accepted (.ckchunk n) s = true ↔ n ≤ 1024 ∧ n ≤ s.buf.size := by
  rw [accepted, Bool.and_eq_true, decide_eq_true_eq, decide_eq_true_eq, Config.chunkMax]

/-- An accepted command completes with its effect. -/
theorem exec_of_accepted {i : Instr} {s : State} (h : accepted i s = true) : exec i s = .next (effect i s) := by
  cases i with
  | ckseed => rfl
  | ckbyte b => rfl
  | ckfin => rfl
  | ckhdr => exact execCkhdr_accepted (accepted_ckhdr.mp h)
  | ckchunk n =>
    obtain ⟨hmax, hsize⟩ := accepted_ckchunk.mp h
    exact execCkchunk_accepted hmax hsize

/-- The refusals X2 and X3 of R111, as conditions on the command and the buffer. -/
def refusedWith (i : Instr) (s : State) (r : Refusal) : Prop :=
  (∃ n, i = .ckchunk n ∧ 1024 < n ∧ r = .lengthRange n) ∨
  (∃ n, i = .ckchunk n ∧ n ≤ 1024 ∧ s.buf.size < n ∧ r = .bufferShort n s.buf.size) ∨
  (i = .ckhdr ∧ s.buf.size < 17 ∧ r = .bufferShort 17 s.buf.size)

theorem exec_of_refusedWith {i : Instr} {s : State} {r : Refusal} (h : refusedWith i s r) : exec i s = .refused r := by
  rcases h with ⟨n, rfl, hn, rfl⟩ | ⟨n, rfl, hn, hshort, rfl⟩ | ⟨rfl, hshort, rfl⟩
  · exact exec_ckchunk_range hn
  · exact exec_ckchunk_short hn hshort
  · exact exec_ckhdr_short hshort

/-- A command that is not accepted has its reason in the list. -/
theorem exists_refusedWith {i : Instr} {s : State} (h : accepted i s = false) : ∃ r, refusedWith i s r := by
  cases i with
  | ckseed => simp [accepted] at h
  | ckbyte b => simp [accepted] at h
  | ckfin => simp [accepted] at h
  | ckhdr =>
    have hshort : s.buf.size < 17 := Nat.lt_of_not_le fun hle => by simp [accepted_ckhdr.mpr hle] at h
    exact ⟨_, .inr (.inr ⟨rfl, hshort, rfl⟩)⟩
  | ckchunk n =>
    rcases Nat.lt_or_ge 1024 n with hrange | hmax
    · exact ⟨_, .inl ⟨n, rfl, hrange, rfl⟩⟩
    · have hshort : s.buf.size < n := Nat.lt_of_not_le fun hle => by simp [accepted_ckchunk.mpr ⟨hmax, hle⟩] at h
      exact ⟨_, .inr (.inl ⟨n, rfl, hmax, hshort, rfl⟩)⟩

/-- Either a command is accepted and completes with its effect, or it is refused for a listed reason. -/
theorem exec_cases (i : Instr) (s : State) :
    (accepted i s = true ∧ exec i s = .next (effect i s)) ∨
    (accepted i s = false ∧ ∃ r, refusedWith i s r ∧ exec i s = .refused r) := by
  cases h : accepted i s with
  | true => exact .inl ⟨rfl, exec_of_accepted h⟩
  | false =>
    obtain ⟨r, hr⟩ := exists_refusedWith h
    exact .inr ⟨rfl, r, hr, exec_of_refusedWith hr⟩

theorem exec_eq_next_iff {i : Instr} {s t : State} : exec i s = .next t ↔ accepted i s = true ∧ t = effect i s := by
  rcases exec_cases i s with ⟨ha, he⟩ | ⟨ha, r, -, he⟩
  · simp [ha, he, eq_comm]
  · simp [ha, he]

theorem exec_eq_refused_iff {i : Instr} {s : State} {r : Refusal} : exec i s = .refused r ↔ refusedWith i s r := by
  refine ⟨fun h => ?_, exec_of_refusedWith⟩
  rcases exec_cases i s with ⟨-, he⟩ | ⟨-, r', hr', he⟩
  · simp [he] at h
  · rw [he] at h
    injection h with h
    exact h ▸ hr'

variable {s t : State} {w : Word} {rest : List HostAction}

theorem step_of_waiting (h : s.pending = []) : step s = .next s := by
  simp only [step, nextAction, h]

theorem step_of_host {m : HostMove} (h : s.pending = .host m :: rest) : step s = hostMove m (s.withPending rest) := by
  simp only [step, nextAction, h]

theorem step_of_cmd {i : Instr} (h : s.pending = .cmd w :: rest) (hd : decode w = .ok i) :
    step s = exec i (s.withPending rest) := by
  simp only [step, nextAction, h, hd]

theorem step_of_illegal (h : s.pending = .cmd w :: rest) (hd : decode w = .error (.illegalCommand w)) :
    step s = .refused (.illegalCommand w) := by
  simp only [step, nextAction, h, hd, refuse]

/-- Taking the presented word away changes nothing that a refusal looks at. -/
@[simp] theorem refusedWith_withPending (i : Instr) (s : State) (l : List HostAction) (r : Refusal) :
    refusedWith i (s.withPending l) r ↔ refusedWith i s r := Iff.rfl

/-- A step refuses a presented word exactly when it is illegal or its command is refused. -/
theorem step_cmd_eq_refused_iff {r : Refusal} (h : s.pending = .cmd w :: rest) : step s = .refused r ↔
    (decode w = .error (.illegalCommand w) ∧ r = .illegalCommand w) ∨ ∃ i, decode w = .ok i ∧ refusedWith i s r := by
  cases hd : decode w with
  | ok i => simp [step_of_cmd h hd, exec_eq_refused_iff]
  | error e =>
    obtain rfl := decode_error hd
    simp [step_of_illegal h hd, eq_comm]

/-- A completed step on a presented word is the effect of its command. -/
theorem step_cmd_next (h : s.pending = .cmd w :: rest) (hs : step s = .next t) :
    ∃ i, decode w = .ok i ∧ t = effect i (s.withPending rest) := by
  cases hd : decode w with
  | ok i =>
    rw [step_of_cmd h hd] at hs
    exact ⟨i, rfl, (exec_eq_next_iff.mp hs).2⟩
  | error e =>
    rw [decode_error hd] at hd
    simp [step_of_illegal h hd] at hs

/-- Settles O39: no command touches the buffer, and every host move keeps its form. -/
theorem everyStepKeepsTheBufferCanonical : Obligations.EveryStepKeepsTheBufferCanonical := by
  intro s t hinv hstep
  have hwf : s.buf.wf = true := hinv
  rcases step_next hstep with ⟨-, rfl⟩ | ⟨m, rest, -, hmove⟩ | ⟨w, rest, i, -, -, hexec⟩
  · exact hinv
  · exact hostMove_next_wf (s := s.withPending rest) hwf hmove
  · obtain ⟨-, rfl⟩ := exec_eq_next_iff.mp hexec
    rw [State.inv, effect_buf]
    exact hwf

/-- Settles O40: the reset buffer lists no byte. -/
theorem resetBufferIsCanonical : Obligations.ResetBufferIsCanonical := rfl

/-- Settles O22: the step's branch for a word that decodes. -/
theorem stepRunsTheDecodedCommand : Obligations.StepRunsTheDecodedCommand := fun _ _ _ _ h hd => step_of_cmd h hd

/-- Settles O23: the step's branch for a host move. -/
theorem stepPerformsTheHostMove : Obligations.StepPerformsTheHostMove := fun _ _ _ h => step_of_host h

/-- Settles O24: the step's branch for an empty list of actions. -/
theorem stepWaitsForTheHost : Obligations.StepWaitsForTheHost := fun _ h => step_of_waiting h

/-- Settles O25: a refused word is illegal or its command is refused for a listed reason. -/
theorem commandRefusedExactlyAsListed : Obligations.CommandRefusedExactlyAsListed := by
  intro s w rest r hpending
  rw [step_cmd_eq_refused_iff hpending]
  refine or_congr Iff.rfl ⟨?_, ?_⟩
  · rintro ⟨i, hd, ⟨n, rfl, h⟩ | ⟨n, rfl, h⟩ | ⟨rfl, h⟩⟩
    · exact .inl ⟨n, hd, h⟩
    · exact .inr (.inl ⟨n, hd, h⟩)
    · exact .inr (.inr ⟨hd, h⟩)
  · rintro (⟨n, hd, h⟩ | ⟨n, hd, h⟩ | ⟨hd, h⟩)
    · exact ⟨_, hd, .inl ⟨n, rfl, h⟩⟩
    · exact ⟨_, hd, .inr (.inl ⟨n, rfl, h⟩)⟩
    · exact ⟨_, hd, .inr (.inr ⟨rfl, h⟩)⟩

/-- Settles O26: the two cases of a decoded command, and the refusal of a word that does not decode. -/
theorem commandCompletesOrIsRefused : Obligations.CommandCompletesOrIsRefused := by
  unfold Obligations.CommandCompletesOrIsRefused
  constructor
  · intro s w rest hpending
    cases hd : decode w with
    | ok i =>
      rw [step_of_cmd hpending hd]
      rcases exec_cases i (s.withPending rest) with ⟨-, he⟩ | ⟨-, r, -, he⟩
      · exact .inl ⟨_, he, by simp⟩
      · exact .inr ⟨r, he⟩
    | error e =>
      rw [decode_error hd] at hd
      exact .inr ⟨_, step_of_illegal hpending hd⟩
  · intro s i
    simp only [exec_eq_next_iff, exists_and_left, exists_eq, and_true]

/-- Settles O27: the run comes to the refused step and ends there. -/
theorem refusedRunStaysRefused : Obligations.RefusedRunStaysRefused := by
  intro s t w rest j k hrun hpending
  have hstays : ∀ {r : Refusal}, step t = .refused r → runSteps (j + (k + 1)) s = .refused r := fun h => by
    rw [runSteps_add _ hrun, runSteps_refused h]
  have hrefused : ∀ {i : Instr} {r : Refusal}, decode w = .ok i → refusedWith i t r →
      runSteps (j + (k + 1)) s = .refused r := fun hd hr =>
    hstays ((step_cmd_eq_refused_iff hpending).mpr (.inr ⟨_, hd, hr⟩))
  refine ⟨?illegal, ?range, ?short, ?header, ?notAccepted⟩
  case illegal => exact fun hd => hstays (step_of_illegal hpending hd)
  case range => exact fun n hd hn => hrefused hd (.inl ⟨n, rfl, hn, rfl⟩)
  case short => exact fun n hd hn hshort => hrefused hd (.inr (.inl ⟨n, rfl, hn, hshort, rfl⟩))
  case header => exact fun hd hshort => hrefused hd (.inr (.inr ⟨rfl, hshort, rfl⟩))
  case notAccepted =>
    intro i hd ha
    obtain ⟨r, hr⟩ := exists_refusedWith ha
    exact ⟨r, hrefused hd hr⟩

/-- Settles O41: the effect of no command reaches the buffer. -/
theorem commandsNeverWriteTheBuffer : Obligations.CommandsNeverWriteTheBuffer := by
  intro s t w rest hpending hstep
  obtain ⟨i, -, rfl⟩ := step_cmd_next hpending hstep
  have hbuf : (effect i (s.withPending rest)).buf = s.buf := by simp
  rw [hbuf]
  exact ⟨rfl, fun _ => rfl, rfl⟩

/-- A step that changes something neither waiting nor a host move changes has run a command. -/
theorem step_next_cmd (hstep : step s = .next t)
    (hchange : t.crc ≠ s.crc ∨ t.res ≠ s.res ∨ t.resSpecified ≠ s.resSpecified) :
    ∃ w rest i, s.pending = .cmd w :: rest ∧ decode w = .ok i ∧ t = effect i (s.withPending rest) := by
  rcases step_next hstep with ⟨-, rfl⟩ | ⟨m, rest, -, hmove⟩ | ⟨w, rest, i, hpending, hd, hexec⟩
  · simp at hchange
  · obtain ⟨hcrc, hres, hspec, -⟩ := hostMove_next_registers hmove
    simp [hcrc, hres, hspec] at hchange
  · exact ⟨w, rest, i, hpending, hd, (exec_eq_next_iff.mp hexec).2⟩

/-- Settles O42: among the commands only `CKFIN` keeps `CRC`. -/
theorem onlyFourCommandsWriteCrc : Obligations.OnlyFourCommandsWriteCrc := by
  intro s t hstep hcrc
  obtain ⟨w, rest, i, hpending, hd, rfl⟩ := step_next_cmd hstep (.inl hcrc)
  refine ⟨w, rest, i, hpending, hd, ?_⟩
  cases i with
  | ckseed => exact .inl rfl
  | ckbyte b => exact .inr (.inl ⟨b, rfl⟩)
  | ckfin => exact absurd rfl hcrc
  | ckhdr => exact .inr (.inr (.inl rfl))
  | ckchunk n => exact .inr (.inr (.inr ⟨n, rfl⟩))

/-- Settles O43: among the commands only `CKSEED` and `CKBYTE` keep `RES`. -/
theorem onlyFinalisersWriteRes : Obligations.OnlyFinalisersWriteRes := by
  intro s t hstep hres
  obtain ⟨w, rest, i, hpending, hd, rfl⟩ := step_next_cmd hstep (.inr hres)
  refine ⟨w, rest, i, hpending, hd, ?_⟩
  cases i with
  | ckseed => simp [effect] at hres
  | ckbyte b => simp [effect] at hres
  | ckfin => exact .inl rfl
  | ckhdr => exact .inr (.inl rfl)
  | ckchunk n => exact .inr (.inr ⟨n, rfl⟩)

/-- A command's effect never makes a specified `RES` unspecified. -/
theorem effect_resSpecified (i : Instr) (h : s.resSpecified = true) : (effect i s).resSpecified = true := by
  cases i with
  | ckseed | ckbyte b => exact h
  | ckfin | ckhdr | ckchunk n => rfl

/-- Settles O44: a step that changed the mark would have run a finalising command, whose effect sets it. -/
theorem specifiedResStaysSpecified : Obligations.SpecifiedResStaysSpecified := by
  intro s t hspec hstep
  by_contra hlost
  obtain ⟨w, rest, i, -, -, rfl⟩ := step_next_cmd hstep (.inr (.inr fun h => hlost (h.trans hspec)))
  exact hlost (effect_resSpecified i hspec)

end Sys2Proof.Machine
end

section
/-! The two bytes of a word (20_memory.md R35; 00_scope.md section 5). -/

namespace Sys2Proof.Machine

theorem getLsbD_lowByte (v : Word) (i : Nat) : (lowByte v).getLsbD i = (decide (i < 8) && v.getLsbD i) := by
  simp [lowByte]

theorem getLsbD_highByte (v : Word) (i : Nat) : (highByte v).getLsbD i = (decide (i < 8) && v.getLsbD (8 + i)) := by
  simp [highByte]

theorem lowByte_xor (a b : Word) : lowByte (a ^^^ b) = lowByte a ^^^ lowByte b := BitVec.extractLsb'_xor

theorem highByte_xor (a b : Word) : highByte (a ^^^ b) = highByte a ^^^ highByte b := BitVec.extractLsb'_xor

theorem lowByte_not (v : Word) : lowByte (~~~v) = ~~~lowByte v := BitVec.extractLsb'_not_of_lt (by decide)

theorem highByte_not (v : Word) : highByte (~~~v) = ~~~highByte v := by
  rw [← BitVec.allOnes_xor, highByte_xor, ← BitVec.allOnes_xor]
  rfl

theorem lowByte_setWidth (b : Byte) : lowByte (b.setWidth 16) = b :=
  (BitVec.extractLsb'_setWidth_of_le (by decide)).trans BitVec.extractLsb'_eq_self

theorem lowByte_ushiftRight (v : Word) : lowByte (v >>> 8) = highByte v := by
  apply BitVec.eq_of_getLsbD_eq
  intro i _
  rw [getLsbD_lowByte, getLsbD_highByte, BitVec.getLsbD_ushiftRight]

theorem highByte_ushiftRight (v : Word) : highByte (v >>> 8) = 0 := by
  apply BitVec.eq_of_getLsbD_eq
  intro i _
  rw [getLsbD_highByte, BitVec.getLsbD_ushiftRight, BitVec.getLsbD_of_ge v _ (by omega), Bool.and_false]
  exact (BitVec.getLsbD_zero).symm

/-- Two bytes read little-endian are the word they are the bytes of. -/
theorem le16_lowByte_highByte (v : Word) : le16 (lowByte v) (highByte v) = v := by
  ext i hi
  by_cases hlow : i < 8
  · simp [le16, lowByte, highByte, hlow, BitVec.getLsbD_eq_getElem hi]
  · have hsource : 8 + (i - 8) = i := by omega
    have hhigh : i - 8 < 8 := by omega
    simp [le16, lowByte, highByte, hlow, hsource, hhigh, BitVec.getLsbD_eq_getElem hi]

theorem word_ext {a b : Word} (hlow : lowByte a = lowByte b) (hhigh : highByte a = highByte b) : a = b := by
  rw [← le16_lowByte_highByte a, hlow, hhigh, le16_lowByte_highByte]

theorem lowByte_bswap16 (a : Word) : lowByte (bswap16 a) = highByte a := by
  apply BitVec.eq_of_getLsbD_eq
  intro i hi
  have hsource : (i + 8) % 16 = 8 + i := by omega
  rw [getLsbD_lowByte, getLsbD_bswap16 a (by omega), hsource, getLsbD_highByte]

theorem highByte_bswap16 (a : Word) : highByte (bswap16 a) = lowByte a := by
  apply BitVec.eq_of_getLsbD_eq
  intro i hi
  have hsource : (8 + i + 8) % 16 = i := by omega
  rw [getLsbD_highByte, getLsbD_bswap16 a (by omega), hsource, getLsbD_lowByte]

/-- A stored checksum is the inverted register, high byte first. -/
theorem storedBytes_finalise (c : Word) : storedBytes (finalise c) = [highByte (~~~c), lowByte (~~~c)] := by
  rw [storedBytes, finalise, lowByte_bswap16, highByte_bswap16]

theorem bswap16_bswap16 (a : Word) : bswap16 (bswap16 a) = a :=
  word_ext (by rw [lowByte_bswap16, highByte_bswap16]) (by rw [highByte_bswap16, lowByte_bswap16])

theorem bswap16_xor (a b : Word) : bswap16 (a ^^^ b) = bswap16 a ^^^ bswap16 b := by
  apply word_ext
  · simp only [lowByte_bswap16, lowByte_xor, highByte_xor]
  · simp only [highByte_bswap16, lowByte_xor, highByte_xor]

/-- Finalising twice gives the register back: the inversion and the exchange each undo themselves. -/
theorem finalise_finalise (c : Word) : finalise (finalise c) = c := by
  rw [finalise, finalise, bswap16_not (bswap16 _), bswap16_bswap16, BitVec.not_not]

theorem finalise_injective : Function.Injective finalise := Function.Involutive.injective finalise_finalise

/-- The inversions of two finalised registers cancel in their sum. -/
theorem finalise_xor_finalise (c c' : Word) : finalise c ^^^ finalise c' = bswap16 (c ^^^ c') := by
  rw [finalise, finalise, bswap16_xor, bswap16_not, bswap16_not]
  rw [← BitVec.not_xor_left, ← BitVec.not_xor_right, BitVec.not_not]

end Sys2Proof.Machine
end

section
/-! The bit step and the byte step over GF(2) (40_checksum_function.md R70 to R72, R81): each is linear in register and input
together, and neither loses anything of the register. -/

namespace Sys2Proof.Machine

/-- The polynomial's bits. -/
theorem getLsbD_poly {i : Nat} (hi : i < 16) : Config.poly.getLsbD i = (i == 3 || i == 10 || i == 15) := by
  revert i
  decide

/-- One shift, bit by bit: the register moves down and the feedback enters where the polynomial has a bit. -/
theorem getLsbD_bitStep (c : Word) (d : Bool) {i : Nat} (hi : i < 16) :
    (bitStep c d).getLsbD i = (c.getLsbD (i + 1) ^^ ((c.getLsbD 0 ^^ d) && (i == 3 || i == 10 || i == 15))) := by
  rw [bitStep]
  cases c.getLsbD 0 ^^ d
  · simp [Nat.add_comm]
  · simp [getLsbD_poly hi, Nat.add_comm]

/-- The bit shifted out comes back, with the input, at the top. -/
theorem getLsbD_bitStep_top (c : Word) (d : Bool) : (bitStep c d).getLsbD 15 = (c.getLsbD 0 ^^ d) := by
  rw [getLsbD_bitStep c d (by decide), BitVec.getLsbD_of_ge c 16 (by decide), Bool.false_xor]
  exact Bool.and_true _

/-- Below the top the register moves down, with the feedback at bits 3 and 10. -/
theorem getLsbD_bitStep_lower (c : Word) (d : Bool) {i : Nat} (hi : i < 15) :
    (bitStep c d).getLsbD i = (c.getLsbD (i + 1) ^^ ((c.getLsbD 0 ^^ d) && (i == 3 || i == 10))) := by
  have htop : (i == 15) = false := beq_eq_false_iff_ne.mpr (Nat.ne_of_lt hi)
  rw [getLsbD_bitStep c d (Nat.lt_succ_of_lt hi), htop, Bool.or_false]

/-- The bit step is linear in register and input together. -/
theorem bitStep_xor (c c' : Word) (d d' : Bool) :
    bitStep (c ^^^ c') (d ^^ d') = bitStep c d ^^^ bitStep c' d' := by
  apply BitVec.eq_of_getLsbD_eq
  intro i hi
  simp only [BitVec.getLsbD_xor, getLsbD_bitStep _ _ hi]
  cases (i == 3 || i == 10 || i == 15)
  · simp only [Bool.and_false, Bool.xor_false]
  · simp only [Bool.and_true, Bool.xor_assoc, Bool.xor_left_comm]

/-- An input bit that equals the register's bit 0 gives no feedback. -/
theorem bitStep_bit_zero (c : Word) : bitStep c (c.getLsbD 0) = c >>> 1 := by
  simp [bitStep]

/-- The bit step loses nothing: bit 15 gives back the bit shifted out, and the other bits give the register. -/
theorem bitStep_injective (d : Bool) : Function.Injective (bitStep · d) := by
  intro c c' h
  have hbits : ∀ i, (bitStep c d).getLsbD i = (bitStep c' d).getLsbD i := fun i => congrArg (BitVec.getLsbD · i) h
  have hzero : c.getLsbD 0 = c'.getLsbD 0 := by
    have htop := hbits 15
    rw [getLsbD_bitStep_top, getLsbD_bitStep_top] at htop
    exact Bool.xor_left_inj.mp htop
  apply BitVec.eq_of_getLsbD_eq
  intro i hi
  cases i with
  | zero => exact hzero
  | succ i =>
    have hshifted := hbits i
    rw [getLsbD_bitStep_lower c d (Nat.lt_of_succ_lt_succ hi), getLsbD_bitStep_lower c' d (Nat.lt_of_succ_lt_succ hi),
      hzero] at hshifted
    exact Bool.xor_left_inj.mp hshifted

/-- The register after the bits that `bit` gives at the positions `is`, in that order. -/
def bitSteps (is : List Nat) (bit : Nat → Bool) (c : Word) : Word := is.foldl (fun acc i => bitStep acc (bit i)) c

theorem byteStep_eq_bitSteps (c : Word) (b : Byte) : byteStep c b = bitSteps (List.range 8) b.getLsbD c := rfl

theorem bitSteps_xor (is : List Nat) (bit bit' : Nat → Bool) (c c' : Word) :
    bitSteps is (fun i => bit i ^^ bit' i) (c ^^^ c') = bitSteps is bit c ^^^ bitSteps is bit' c' := by
  induction is generalizing c c' with
  | nil => rfl
  | cons i is ih =>
    simp only [bitSteps, List.foldl_cons, bitStep_xor] at ih ⊢
    exact ih _ _

theorem bitSteps_injective (is : List Nat) (bit : Nat → Bool) : Function.Injective (bitSteps is bit) := by
  induction is with
  | nil => exact Function.injective_id
  | cons i is ih => exact ih.comp (bitStep_injective (bit i))

/-- A register fed its own bits is shifted down, with no feedback. -/
theorem bitSteps_own_bits (c : Word) (k : Nat) : bitSteps (List.range k) c.getLsbD c = c >>> k := by
  induction k with
  | zero => simp [bitSteps]
  | succ k ih =>
    have hbit : c.getLsbD k = (c >>> k).getLsbD 0 := by simp
    have hlast : bitSteps (List.range (k + 1)) c.getLsbD c = bitStep (bitSteps (List.range k) c.getLsbD c) (c.getLsbD k) := by
      simp only [bitSteps, List.range_succ, List.foldl_append, List.foldl_cons, List.foldl_nil]
    rw [hlast, ih, hbit, bitStep_bit_zero, BitVec.shiftRight_add]

theorem byteStep_xor (c c' : Word) (b b' : Byte) :
    byteStep (c ^^^ c') (b ^^^ b') = byteStep c b ^^^ byteStep c' b' := by
  simp only [byteStep_eq_bitSteps, ← bitSteps_xor]
  congr 1
  funext i
  exact BitVec.getLsbD_xor

theorem byteStep_left_injective (b : Byte) : Function.Injective (byteStep · b) := bitSteps_injective _ _

/-- A byte equal to the register's low byte cancels it. -/
theorem byteStep_lowByte (c : Word) : byteStep c (lowByte c) = c >>> 8 := by
  rw [← bitSteps_own_bits c 8, byteStep_eq_bitSteps, bitSteps, bitSteps]
  refine List.foldl_ext _ _ _ fun acc i hi => ?_
  have hlow : i < 8 := List.mem_range.mp hi
  rw [getLsbD_lowByte, decide_eq_true hlow, Bool.true_and]

/-- `Shift8` is the byte step of a zero byte. -/
theorem shift8_eq_byteStep (x : Word) : shift8 x = byteStep x 0 := by
  simp [shift8, byteStep, bitStep]

theorem shift8_injective : Function.Injective shift8 := by
  have hshift : shift8 = (byteStep · 0) := funext shift8_eq_byteStep
  exact hshift ▸ byteStep_left_injective 0

/-- The byte-at-once form (R72): the byte is added to the register first, where it cancels itself. -/
theorem byteStep_eq_shift8 (c : Word) (b : Byte) : byteStep c b = shift8 (c ^^^ b.setWidth 16) := by
  have hcancel : byteStep (b.setWidth 16) b = 0 := by
    have hstep := byteStep_lowByte (b.setWidth 16)
    rw [lowByte_setWidth] at hstep
    rw [hstep]
    apply BitVec.eq_of_toNat_eq
    have hb : b.toNat < 256 := b.isLt
    simp [Nat.shiftRight_eq_div_pow]
    omega
  calc byteStep c b = byteStep c b ^^^ byteStep (b.setWidth 16) b := by rw [hcancel]; exact (BitVec.xor_zero).symm
    _ = byteStep (c ^^^ b.setWidth 16) (b ^^^ b) := (byteStep_xor _ _ _ _).symm
    _ = shift8 (c ^^^ b.setWidth 16) := by rw [BitVec.xor_self, shift8_eq_byteStep]; rfl

/-- The table form (R72): the register's high byte is kept and the table is read at the sum of its low byte and the input. -/
theorem byteStep_eq_table (c : Word) (b : Byte) :
    byteStep c b = (c >>> 8) ^^^ shift8 ((lowByte c ^^^ b).setWidth 16) := by
  have hsplit : byteStep (c ^^^ 0) (lowByte c ^^^ (lowByte c ^^^ b)) =
      byteStep c (lowByte c) ^^^ byteStep 0 (lowByte c ^^^ b) := byteStep_xor _ _ _ _
  rw [← BitVec.xor_assoc, BitVec.xor_self, BitVec.zero_xor, byteStep_lowByte, byteStep_eq_shift8 0] at hsplit
  simpa using hsplit

theorem byteStep_right_injective (c : Word) : Function.Injective (byteStep c) := by
  intro b b' h
  rw [byteStep_eq_shift8, byteStep_eq_shift8] at h
  have hwide : b.setWidth 16 = b'.setWidth 16 := (BitVec.xor_right_inj c).mp (shift8_injective h)
  rw [← lowByte_setWidth b, hwide, lowByte_setWidth]

end Sys2Proof.Machine
end

section
/-! Runs and checksums (40_checksum_function.md R73 to R83), and the obligations about the checksum function. -/

namespace Sys2Proof.Machine

theorem runBytes_append (c : Word) (xs ys : List Byte) : runBytes c (xs ++ ys) = runBytes (runBytes c xs) ys := by
  induction xs generalizing c with
  | nil => rfl
  | cons x xs ih => exact ih _

/-- A run is linear in register and bytes together. -/
theorem runBytes_xor (c c' : Word) {xs ys : List Byte} (hlength : xs.length = ys.length) :
    runBytes (c ^^^ c') (List.zipWith (· ^^^ ·) xs ys) = runBytes c xs ^^^ runBytes c' ys := by
  induction xs generalizing c c' ys with
  | nil =>
    obtain rfl := List.length_eq_zero_iff.mp hlength.symm
    rfl
  | cons x xs ih =>
    cases ys with
    | nil => simp at hlength
    | cons y ys =>
      rw [List.zipWith_cons_cons, runBytes_cons, byteStep_xor, ih _ _ (Nat.succ.inj hlength)]
      rfl

/-- A run loses nothing of the register it starts from. -/
theorem runBytes_left_injective (xs : List Byte) : Function.Injective (runBytes · xs) := by
  induction xs with
  | nil => exact Function.injective_id
  | cons x xs ih => exact ih.comp (byteStep_left_injective x)

/-- Changing one byte of a run changes its result: the byte step tells the two bytes apart, and the rest loses nothing. -/
theorem runBytes_set_ne (c : Word) {xs : List Byte} {k : Nat} {x y : Byte} (hx : xs[k]? = some x) (hxy : y ≠ x) :
    runBytes c (xs.set k y) ≠ runBytes c xs := by
  induction xs generalizing c k with
  | nil => simp at hx
  | cons z xs ih =>
    cases k with
    | zero =>
      obtain rfl : z = x := by simpa using hx
      exact fun h => hxy (byteStep_right_injective c (runBytes_left_injective xs h))
    | succ k => exact ih _ (by simpa using hx)

/-- Zero bytes keep the zero register. -/
theorem runBytes_zero_replicate_zero (k : Nat) : runBytes 0 (List.replicate k 0) = 0 := by
  induction k with
  | zero => rfl
  | succ k ih => exact ih

/-- One formula gives the checksum at every length within the buffer (R77). -/
theorem checksum16_eq {buf : List Byte} {n : Nat} (h : n ≤ buf.length) :
    checksum16 buf n = some (finalise (runBytes Config.seed (buf.take n))) := by
  cases n with
  | zero => rw [checksum16_zero, List.take_zero, runBytes_nil, finalise_seed]
  | succ n => exact checksum16_pos (Nat.succ_ne_zero n) h

theorem checksum16_length (xs : List Byte) :
    checksum16 xs xs.length = some (finalise (runBytes Config.seed xs)) := by
  rw [checksum16_eq (Nat.le_refl _), List.take_length]

theorem checksum16_append (xs ys : List Byte) :
    checksum16 (xs ++ ys) xs.length = some (finalise (runBytes Config.seed xs)) := by
  rw [checksum16_eq (by simp), List.take_left]

/-- Equal checksums of whole buffers come from equal registers. -/
theorem checksum16_length_inj {xs ys : List Byte} : checksum16 xs xs.length = checksum16 ys ys.length ↔
    runBytes Config.seed xs = runBytes Config.seed ys := by
  rw [checksum16_length, checksum16_length, Option.some_inj, finalise_injective.eq_iff]

theorem stepZero_injective : Function.Injective stepZero := bitStep_injective false

theorem shift8_bijective : Function.Bijective shift8 := Finite.injective_iff_bijective.mp shift8_injective

/-- The entry of the 256-entry table at `x` (R72). -/
def tableEntry (x : Byte) : Word := shift8 (x.setWidth 16)

theorem highByte_byteStep (c : Word) (b : Byte) :
    highByte (byteStep c b) = highByte (tableEntry (lowByte c ^^^ b)) := by
  rw [byteStep_eq_table, highByte_xor, highByte_ushiftRight, tableEntry]
  exact BitVec.zero_xor

theorem lowByte_byteStep (c : Word) (b : Byte) :
    lowByte (byteStep c b) = highByte c ^^^ lowByte (tableEntry (lowByte c ^^^ b)) := by
  rw [byteStep_eq_table, lowByte_xor, lowByte_ushiftRight, tableEntry]

/-- A register kept by a zero byte is given by its low byte, of which only two values fit. -/
theorem byteStep_zero_eq_self_iff (c : Word) : byteStep c 0x00 = c ↔ c = 0x0000 ∨ c = 0xF80F := by
  have hfits : ∀ x : Byte, x = highByte (tableEntry x) ^^^ lowByte (tableEntry x) → x = 0x00 ∨ x = 0x0F := by decide
  constructor
  · intro hkept
    have hlow := lowByte_byteStep c 0x00
    have hhigh := highByte_byteStep c 0x00
    rw [hkept, BitVec.ofNat_eq_ofNat, BitVec.xor_zero] at hlow hhigh
    rw [hhigh] at hlow
    rcases hfits _ hlow with hx | hx
    · exact .inl (word_ext hx (by rw [hhigh, hx]; decide))
    · exact .inr (word_ext hx (by rw [hhigh, hx]; decide))
  · rintro (rfl | rfl) <;> decide

/-- Consuming its own stored checksum changes every register: the two steps depend only on the sum `x` of the register's low
byte and inverted high byte, and no `x` is that sum again after them. -/
theorem runBytes_storedBytes_finalise_ne (c : Word) : runBytes c (storedBytes (finalise c)) ≠ c := by
  have hmoves : ∀ x : Byte, x ≠ (highByte (tableEntry x) ^^^ lowByte (tableEntry (x ^^^ lowByte (tableEntry x)))) ^^^
      ~~~highByte (tableEntry (x ^^^ lowByte (tableEntry x))) := by decide
  rw [storedBytes_finalise, lowByte_not, highByte_not, runBytes_cons, runBytes_cons, runBytes_nil]
  intro hkept
  have hlow := lowByte_byteStep (byteStep c (~~~highByte c)) (~~~lowByte c)
  have hhigh := highByte_byteStep (byteStep c (~~~highByte c)) (~~~lowByte c)
  have hsum : lowByte (byteStep c (~~~highByte c)) ^^^ ~~~lowByte c = (lowByte c ^^^ ~~~highByte c) ^^^
      lowByte (tableEntry (lowByte c ^^^ ~~~highByte c)) := by
    rw [lowByte_byteStep, ← BitVec.not_xor_right, ← BitVec.not_xor_right]
    rw [← BitVec.not_xor_left]
    ac_rfl
  rw [hkept, hsum, highByte_byteStep] at hlow
  rw [hkept, hsum] at hhigh
  apply hmoves (lowByte c ^^^ ~~~highByte c)
  rw [← hlow, ← hhigh]

/-- Settles O1: the top bit and the bits below it, and the corner cases. -/
theorem bitStepShiftsAndFeedsBack : Obligations.BitStepShiftsAndFeedsBack := by
  unfold Obligations.BitStepShiftsAndFeedsBack
  refine ⟨fun c d => ⟨getLsbD_bitStep_top c d, fun i hi => getLsbD_bitStep_lower c d hi⟩, ?corners⟩
  case corners => decide

/-- Settles O2: the eight rounds of `byteStep` written out, and the examples. -/
theorem byteStepTakesBitZeroFirst : Obligations.ByteStepTakesBitZeroFirst := by
  unfold Obligations.ByteStepTakesBitZeroFirst
  refine ⟨fun c b => rfl, ?examples⟩
  case examples => decide

/-- Settles O3: the byte-at-once form, and the table form with the table read at the masked sum. -/
theorem byteStepEqualsByteAtOnce : Obligations.ByteStepEqualsByteAtOnce := by
  unfold Obligations.ByteStepEqualsByteAtOnce
  refine ⟨byteStep_eq_shift8, fun c b => ?table, ?entries⟩
  case table =>
    have hindex : (c ^^^ b.setWidth 16) &&& 0xFF = (lowByte c ^^^ b).setWidth 16 := by
      apply BitVec.eq_of_getLsbD_eq
      intro i hi
      rw [BitVec.getLsbD_and, getLsbD_lowByteMask, BitVec.getLsbD_xor, BitVec.getLsbD_setWidth, BitVec.getLsbD_setWidth,
        BitVec.getLsbD_xor, getLsbD_lowByte, decide_eq_true hi]
      by_cases hlow : i < 8
      · simp only [hlow, decide_true, Bool.true_and, Bool.and_true]
      · simp only [hlow, decide_false, Bool.and_false, Bool.false_and, Bool.false_xor,
          BitVec.getLsbD_of_ge b i (Nat.not_lt.mp hlow)]
    rw [hindex, byteStep_eq_table]
  case entries => decide

/-- Settles O4. The checksum of the two bytes that take the seed back to itself is that of no bytes; behind a buffer that
leaves the zero register they are told apart. -/
theorem runComputedInPieces : Obligations.RunComputedInPieces := by
  unfold Obligations.RunComputedInPieces
  refine ⟨runBytes_append, fun xs ys => ?whole, ?noComposition⟩
  case whole => rw [checksum16_length, runBytes_append]; rfl
  case noComposition =>
    rintro ⟨f, hf⟩
    have hloop : runBytes Config.seed [0xDE, 0x0C] = runBytes Config.seed [] := by decide +kernel
    have hsame : checksum16 [0xDE, 0x0C] [0xDE, 0x0C].length = checksum16 [] [].length :=
      checksum16_length_inj.mpr hloop
    have hwhole := (hf [0xFF, 0xFF] [0xDE, 0x0C]).trans ((congrArg _ hsame).trans (hf [0xFF, 0xFF] []).symm)
    have hregisters := checksum16_length_inj.mp hwhole
    exact absurd hregisters (by decide +kernel)

/-- Settles O5: buffers that agree below `n` have the same first `n` bytes. -/
theorem checksumIgnoresBytesBeyondTheLength : Obligations.ChecksumIgnoresBytesBeyondTheLength := by
  unfold Obligations.ChecksumIgnoresBytesBeyondTheLength
  refine ⟨fun buf buf' n hn hn' hagree => ?agree, ?examples⟩
  case agree =>
    have htake : buf.take n = buf'.take n := by
      apply List.ext_getElem?
      intro i
      simp only [List.getElem?_take]
      split_ifs with hi
      · exact hagree i hi
      · rfl
    rw [checksum16_eq hn, checksum16_eq hn', htake]
  case examples => decide +kernel

/-- Settles O6: linearity of the bit step gives that of the run; both bijections are injections of a finite set into
itself. -/
theorem checksumIsLinearOverGF2 : Obligations.ChecksumIsLinearOverGF2 := by
  unfold Obligations.ChecksumIsLinearOverGF2
  refine ⟨?input, fun c c' => bitStep_xor c c' false false, rfl, fun c c' xs ys => runBytes_xor c c',
    finalise_xor_finalise, fun c => ?top, ?lower, Finite.injective_iff_bijective.mp stepZero_injective, finalise_finalise,
    Finite.injective_iff_bijective.mp finalise_injective⟩
  case input =>
    intro c d
    have hsplit : bitStep (c ^^^ 0) (false ^^ d) = stepZero c ^^^ bitStep 0 d := bitStep_xor c 0 false d
    rw [Bool.false_xor, BitVec.ofNat_eq_ofNat, BitVec.xor_zero] at hsplit
    rw [hsplit]
    cases d <;> rfl
  case top => rw [stepZero, getLsbD_bitStep_top, Bool.xor_false]
  case lower =>
    intro c i hi
    have hpoly : (0x8408 : Word).getLsbD i = (i == 3 || i == 10) := by
      revert i
      decide
    rw [BitVec.getLsbD_xor, stepZero, getLsbD_bitStep_lower c false hi, Bool.xor_false]
    cases c.getLsbD 0
    · simp
    · rw [if_pos rfl, hpoly, Bool.true_and, Bool.xor_assoc, Bool.xor_self, Bool.xor_false]

/-- Settles O7: one changed bit is one changed byte (`runBytes_set_ne`); V14's two buffers collide. -/
theorem singleBitChangeChangesTheChecksum : Obligations.SingleBitChangeChangesTheChecksum := by
  unfold Obligations.SingleBitChangeChangesTheChecksum
  refine ⟨fun xs k j x hx hj hsame => ?changed, [0x01, 0x08, 0x01], [0x10, 0x00, 0x00], rfl, by decide, ?collision⟩
  case changed =>
    have hbit : x ^^^ BitVec.twoPow 8 j ≠ x := by
      intro h
      have hflip := congrArg (BitVec.getLsbD · j) h
      simp [hj] at hflip
    have hlength : (xs.set k (x ^^^ BitVec.twoPow 8 j)).length = xs.length := List.length_set
    rw [← hlength, checksum16_length, hlength, checksum16_length, Option.some_inj, finalise_injective.eq_iff] at hsame
    exact runBytes_set_ne _ hx hbit hsame
  case collision => exact checksum16_length_inj.mpr (by decide +kernel)

/-- Settles O8: the two bytes take the seed to zero, which zero bytes keep. -/
theorem zeroRegisterIsKeptByZeroBytes : Obligations.ZeroRegisterIsKeptByZeroBytes := by
  unfold Obligations.ZeroRegisterIsKeptByZeroBytes
  have hzero : runBytes Config.seed [0xFF, 0xFF] = 0 := by decide +kernel
  refine ⟨hzero, by decide +kernel, by decide, fun k => ?kept, by decide⟩
  case kept =>
    have hlength : ([0xFF, 0xFF] ++ List.replicate k (0x00 : Byte)).length = 2 + k := by
      rw [List.length_append, List.length_replicate]; rfl
    rw [← hlength, checksum16_length, runBytes_append, hzero, runBytes_zero_replicate_zero]
    rfl

/-- The published check string's register (R84). -/
theorem runBytes_check_string :
    runBytes 0xFFFF [0x31, 0x32, 0x33, 0x34, 0x35, 0x36, 0x37, 0x38, 0x39] = 0x6F91 := by
  rw [runBytes_eq_runForced]
  decide

/-- Settles O10: the general case of `checksum16`, and the case beyond the buffer. -/
theorem checksumSeedsConsumesFinalises : Obligations.ChecksumSeedsConsumesFinalises := by
  unfold Obligations.ChecksumSeedsConsumesFinalises
  refine ⟨fun _ _ _ hn => checksum16_eq hn, fun _ _ h => checksum16_beyond h, ?ruleExample⟩
  case ruleExample =>
    have hfin : finalise 0x6F91 = 0x6E90 := by decide
    rw [← hfin, ← runBytes_check_string]
    exact checksum16_length _

/-- Settles O12: `checksum16_eq` at every length. -/
theorem oneFormulaForEveryLength : Obligations.OneFormulaForEveryLength := fun _ _ hn => checksum16_eq hn

/-- Settles O13: the register of the check string, inverted. -/
theorem publishedCheckValue : Obligations.PublishedCheckValue := by
  unfold Obligations.PublishedCheckValue
  refine ⟨by decide, ?check, by decide⟩
  case check => rw [runBytes_check_string]; decide

/-- Settles O54: the exchange of bytes puts the inverted high byte first. -/
theorem frameCarriesTheInvertedRegister : Obligations.FrameCarriesTheInvertedRegister :=
  ⟨storedBytes_finalise, runBytes_check_string, by decide⟩

/-- Refutes O30: the byte step of a zero byte keeps `0xF80F`. -/
theorem not_zeroByteChangesEveryNonzeroRegister : ¬ Obligations.ZeroByteChangesEveryNonzeroRegister := fun h =>
  h 0xF80F (by decide) ((byteStep_zero_eq_self_iff _).mpr (.inr rfl))

/-- Settles O29: injectivity and the fixed points from the byte step's forms; a nonzero byte moves the zero register, and a
zero byte moves 1. -/
theorem ckbyteTakesOneByteStep : Obligations.CkbyteTakesOneByteStep := by
  unfold Obligations.CkbyteTakesOneByteStep
  refine ⟨fun b => rfl, fun w hlow hhigh => ?illegal, fun s b => rfl, fun c b b' h => byteStep_right_injective c h,
    shift8_bijective, fun b => ?moves, byteStep_zero_eq_self_iff, fun s => ?ruleExample⟩
  case illegal =>
    rw [decode_eq_illegal_iff_toNat]
    omega
  case moves =>
    by_cases hb : b = 0
    · subst hb
      exact ⟨1, by decide⟩
    · exact ⟨0, fun h => hb (byteStep_right_injective 0 (h.trans (by decide)))⟩
  case ruleExample =>
    have hstep : byteStep 0xFFFF 0x41 = 0x5C0A := by decide
    rw [exec_ckbyte, ← hstep]
    rfl

end Sys2Proof.Machine
end

section
/-! The commands one by one (41_streaming_ops.md, 42_block_ops.md) and the stream of single-byte commands (R93, R102). -/

namespace Sys2Proof.Machine

theorem runBytes_header_example : runBytes 0xFFFF
    [0x41, 0x2E, 0x54, 0x58, 0x54, 0, 0, 0, 0, 0, 0, 0, 0, 0x64, 0, 0, 0] = 0x8CF7 := by
  decide +kernel

/-- Bytes that all read from a buffer lie within it. -/
theorem size_of_memRead {b : Buffer} {xs : List Byte} {n : Nat} (hlength : xs.length = n)
    (hread : ∀ i, i < n → memRead b i = xs[i]?) : n ≤ b.size := by
  by_contra hshort
  have hlast := hread b.size (by omega)
  rw [memRead_of_le (Nat.le_refl _), List.getElem?_eq_getElem (by omega)] at hlast
  simp at hlast

/-- Every range within a buffer reads as some list of bytes. -/
theorem exists_memRead_eq {b : Buffer} {n : Nat} (hn : n ≤ b.size) :
    ∃ xs : List Byte, xs.length = n ∧ ∀ i, i < n → memRead b i = xs[i]? :=
  ⟨blockBytes b n, blockBytes_length b n, fun _ hi => (blockBytes_getElem? hn hi).symm⟩

/-- The shared effect of the block commands, from the bytes that the range reads as. -/
theorem absorbBuffer_of_memRead {s : State} {n : Nat} {xs : List Byte} (hn : n ≤ s.buf.size) (hlength : xs.length = n)
    (hread : ∀ i, i < n → memRead s.buf i = xs[i]?) : absorbBuffer n s =
      { s with crc := runBytes 0xFFFF xs, res := finalise (runBytes 0xFFFF xs), resSpecified := true } := by
  rw [absorbBuffer, blockBytes_eq_of_memRead hn hlength hread]
  rfl

theorem exec_ckhdr_accepted {s : State} (h : 17 ≤ s.buf.size) : exec .ckhdr s = .next (absorbBuffer 17 s) :=
  exec_of_accepted (accepted_ckhdr.mpr h)

theorem exec_ckchunk_accepted {s : State} {n : Nat} (hmax : n ≤ 1024) (hn : n ≤ s.buf.size) :
    exec (.ckchunk n) s = .next (absorbBuffer n s) :=
  exec_of_accepted (accepted_ckchunk.mpr ⟨hmax, hn⟩)

/-- Settles O19: each word through the decoder, and the refusal of a length above 1024. -/
theorem writtenOutWordsDecode : Obligations.WrittenOutWordsDecode :=
  ⟨rfl, rfl, rfl, rfl, rfl, rfl, rfl, rfl, rfl, fun _ => exec_ckchunk_range (by decide), rfl, rfl⟩

/-- Settles O28: the effect of `CKSEED`, and the words between its own and the next row's. -/
theorem ckseedSetsTheSeed : Obligations.CkseedSetsTheSeed := by
  unfold Obligations.CkseedSetsTheSeed
  refine ⟨rfl, rfl, fun w hlow hhigh => ?illegal, fun _ => rfl, fun _ => rfl, rfl, fun _ => rfl⟩
  case illegal =>
    rw [decode_eq_illegal_iff_toNat]
    omega

/-- Settles O31: the effect of `CKFIN`, which reads only what it keeps. -/
theorem ckfinFinalisesTheRegister : Obligations.CkfinFinalisesTheRegister := by
  unfold Obligations.CkfinFinalisesTheRegister
  refine ⟨rfl, rfl, fun _ => rfl, fun s => ?fromSeed, fun s t h => ?twice, fun s => ?ruleExample⟩
  case fromSeed =>
    rw [exec_ckfin]
    exact congrArg (fun v => Host.Outcome.next (State.setRes { s with crc := 0xFFFF } v)) finalise_seed
  case twice =>
    obtain ⟨-, rfl⟩ := exec_eq_next_iff.mp h
    rfl
  case ruleExample =>
    have hfin : finalise 0x6F91 = 0x6E90 := by decide
    rw [exec_ckfin]
    exact congrArg (fun v => Host.Outcome.next (State.setRes { s with crc := 0x6F91 } v)) hfin

/-- Settles O32: the shared effect over the 17 bytes that the range reads as. -/
theorem ckhdrChecksumsTheHeader : Obligations.CkhdrChecksumsTheHeader := by
  have hmain : ∀ (s : State) (xs : List Byte), xs.length = 17 → (∀ i, i < 17 → memRead s.buf i = xs[i]?) →
      exec .ckhdr s = .next
        { s with crc := runBytes 0xFFFF xs, res := finalise (runBytes 0xFFFF xs), resSpecified := true } := by
    intro s xs hlength hread
    have hsize := size_of_memRead hlength hread
    rw [exec_ckhdr_accepted hsize, absorbBuffer_of_memRead hsize hlength hread]
  unfold Obligations.CkhdrChecksumsTheHeader
  refine ⟨rfl, rfl, fun s xs hlength hread => ⟨hmain s xs hlength hread, ?checksum⟩, fun s => exists_memRead_eq,
    fun s => exec_ckhdr_short, fun s h => ?asChunk, fun s c h => ?noCrc, fun s hread => ?ruleExample, by decide⟩
  case checksum => exact hlength ▸ checksum16_length xs
  case asChunk => rw [exec_ckhdr_accepted h, exec_ckchunk_accepted (by decide) h]
  case noCrc => exact (exec_ckhdr_accepted (s := { s with crc := c }) h).trans (exec_ckhdr_accepted h).symm
  case ruleExample =>
    have hfin : finalise 0x8CF7 = 0x0873 := by decide
    rw [hmain s _ rfl hread, runBytes_header_example, hfin]

/-- Settles O33: the shared effect over the bytes that the range reads as, and the refusals. -/
theorem ckchunkChecksumsThePrefix : Obligations.CkchunkChecksumsThePrefix := by
  have hmain : ∀ (s : State) (n : Nat) (xs : List Byte), n ≤ 1024 → n ≤ s.buf.size → xs.length = n →
      (∀ i, i < n → memRead s.buf i = xs[i]?) → exec (.ckchunk n) s = .next
        { s with crc := runBytes 0xFFFF xs, res := finalise (runBytes 0xFFFF xs), resSpecified := true } := by
    intro s n xs hmax hsize hlength hread
    rw [exec_ckchunk_accepted hmax hsize, absorbBuffer_of_memRead hsize hlength hread]
  unfold Obligations.CkchunkChecksumsThePrefix
  refine ⟨fun n hn => ?encoding, fun s n xs hmax hsize hlength hread => ⟨hmain s n xs hmax hsize hlength hread, ?checksum⟩,
    fun s n => exists_memRead_eq, fun s => rfl, fun s n => exec_ckchunk_range, fun s n => exec_ckchunk_short,
    fun s n c hmax hsize => ?noCrc, fun s hsize h0 h1 h2 => ?ruleExample⟩
  case encoding =>
    have hoperand : (BitVec.ofNat 12 n).setWidth 16 = BitVec.ofNat 16 n := by
      apply BitVec.eq_of_toNat_eq
      simp only [BitVec.toNat_setWidth, BitVec.toNat_ofNat]
      omega
    rw [encode, hoperand]
  case checksum => exact hlength ▸ checksum16_length xs
  case noCrc =>
    exact (exec_ckchunk_accepted (s := { s with crc := c }) hmax hsize).trans (exec_ckchunk_accepted hmax hsize).symm
  case ruleExample =>
    have hread : ∀ i, i < 2 → memRead s.buf i = ([0x41, 0x42] : List Byte)[i]? := by
      intro i hi
      interval_cases i
      · exact h0
      · exact h1
    have hrun : runBytes 0xFFFF [0x41, 0x42] = 0xCE10 := by decide +kernel
    have hfin : finalise 0xCE10 = 0xEF31 := by decide
    rw [hmain s 2 _ (by decide) (by omega) rfl hread, hrun, hfin]

/-- Settles O34: the effects of the three commands, field by field. -/
theorem streamingCommandsFrame : Obligations.StreamingCommandsFrame := by
  intro s t i hi hexec
  obtain ⟨-, rfl⟩ := exec_eq_next_iff.mp hexec
  refine ⟨fun hne => ?res, fun heq => ?crc, fun a => ?bytes, ?size, ?pending, ?reads, ?draws⟩
  case res =>
    rcases hi with rfl | ⟨b, rfl⟩ | rfl
    · exact ⟨rfl, rfl⟩
    · exact ⟨rfl, rfl⟩
    · exact absurd rfl hne
  case crc =>
    subst heq
    rfl
  all_goals simp

/-- Settles O35: no command's effect reaches the buffer or the host's fields. -/
theorem blockCommandsFrame : Obligations.BlockCommandsFrame := by
  intro s t i _ hexec
  obtain ⟨-, rfl⟩ := exec_eq_next_iff.mp hexec
  simp

section Runs

variable {s : State} {w : Word} {rest : List HostAction}

/-- A run whose first step is an accepted command goes on from its effect. -/
theorem runSteps_cmd {i : Instr} (k : Nat) (hpending : s.pending = .cmd w :: rest) (hd : decode w = .ok i)
    (ha : accepted i s = true) : runSteps (k + 1) s = runSteps k (effect i (s.withPending rest)) :=
  runSteps_succ ((step_of_cmd hpending hd).trans (exec_of_accepted ha))

/-- One step is the run of one step. -/
theorem runSteps_one (s : State) : runSteps 1 s = step s := by
  cases h : step s with
  | next t => exact runSteps_succ h
  | refused r => exact runSteps_refused h
  | fault f =>
    have hcore : Sys2Proof.core.step s = .fault f := h
    simp only [runSteps, Host.Core.run, hcore]
    rfl

@[simp] theorem State.withPending_withPending (s : State) (l l' : List HostAction) :
    (s.withPending l).withPending l' = s.withPending l' := rfl

theorem decode_byteWord (b : Byte) : decode (0x2000 ||| b.setWidth 16) = .ok (.ckbyte b) :=
  decode_encode (i := .ckbyte b) rfl

/-- One `CKBYTE` per byte is the run of the bytes. -/
theorem runSteps_ckbytes (xs : List Byte) (hpending : s.pending = ckbytesWords xs ++ rest) :
    runSteps xs.length s = .next { s with crc := runBytes s.crc xs, pending := rest } := by
  induction xs generalizing s with
  | nil =>
    obtain rfl : s.pending = rest := hpending
    rfl
  | cons x xs ih =>
    have hnext : s.pending = .cmd (encode (.ckbyte x)) :: (ckbytesWords xs ++ rest) := hpending
    rw [List.length_cons, runSteps_cmd _ hnext (decode_encode rfl) rfl, ih rfl]
    rfl

/-- One `CKBYTE` per byte and `CKFIN` leave the run of the bytes and its finalisation. -/
theorem runSteps_ckbytes_ckfin (xs : List Byte)
    (hpending : s.pending = ckbytesWords xs ++ .cmd (encode .ckfin) :: rest) :
    runSteps (xs.length + 1) s = .next { s with
      crc := runBytes s.crc xs, res := finalise (runBytes s.crc xs), resSpecified := true, pending := rest } := by
  rw [runSteps_add 1 (runSteps_ckbytes xs hpending), runSteps_one,
    step_of_cmd (w := encode .ckfin) rfl (decode_encode rfl)]
  rfl

/-- A seeded stream and `CKFIN` leave the run of the bytes from the seed and its finalisation. -/
theorem runSteps_stream (xs : List Byte)
    (hpending : s.pending = .cmd (encode .ckseed) :: (ckbytesWords xs ++ .cmd (encode .ckfin) :: rest)) :
    runSteps (xs.length + 2) s = .next { s with
      crc := runBytes 0xFFFF xs, res := finalise (runBytes 0xFFFF xs), resSpecified := true, pending := rest } := by
  rw [runSteps_cmd (xs.length + 1) hpending (decode_encode rfl) rfl, runSteps_ckbytes_ckfin xs rfl]
  rfl

end Runs

/-- Settles O37: the stream's run and the checksum's one formula; at reset `CRC` is the seed already. -/
theorem streamComputesTheChecksum : Obligations.StreamComputesTheChecksum :=
  ⟨fun _ xs _ hpending => ⟨_, checksum16_length xs, runSteps_stream xs hpending⟩,
    fun xs _ => ⟨_, checksum16_length xs, runSteps_ckbytes_ckfin xs rfl⟩⟩

/-- Settles O38: the block command's effect from the bytes its range reads as is the state the stream of them leaves. -/
theorem blockCommandEqualsStream : Obligations.BlockCommandEqualsStream := by
  unfold Obligations.BlockCommandEqualsStream
  constructor
  · intro s n xs rest hmax hsize hlength hread
    have hfits : (Instr.ckchunk n).wellFormed = true := decide_eq_true (by omega)
    have habsorb := absorbBuffer_of_memRead (s := s.withPending rest) hsize hlength hread
    have hblock : exec (.ckchunk n) (s.withPending rest) = .next (absorbBuffer n (s.withPending rest)) :=
      exec_ckchunk_accepted hmax hsize
    have hstream := runSteps_stream (s := s.withPending
      (.cmd (encode .ckseed) :: (ckbytesWords xs ++ .cmd (encode .ckfin) :: rest))) xs rfl
    rw [hlength] at hstream
    rw [runSteps_one, step_of_cmd (w := encode (.ckchunk n)) rfl (decode_encode hfits), State.withPending_withPending,
      hblock, habsorb]
    exact hstream.symm
  · intro s rest hsize
    have hsize' : 17 ≤ (s.withPending rest).buf.size := hsize
    rw [runSteps_one, runSteps_one, step_of_cmd (w := 0x4000) (i := .ckhdr) rfl rfl,
      step_of_cmd (w := 0x5011) (i := .ckchunk 17) rfl rfl, State.withPending_withPending, State.withPending_withPending,
      exec_ckhdr_accepted hsize', exec_ckchunk_accepted (by decide) hsize']

end Sys2Proof.Machine
end

section
/-! The host's moves one by one (10_state.md R12, R13; 20_memory.md R35; 30_encoding.md R59) and what they leave in the buffer. -/

namespace Sys2Proof.Machine

variable {s : State} {n a : Nat} {v : Byte}

theorem hostMove_write (h : a < s.buf.size) :
    hostMove (.write a v) s = .next { s with buf := s.buf.setByte a v } := if_pos h

theorem hostMove_write_outside (h : s.buf.size ≤ a) :
    hostMove (.write a v) s = .fault (.hostWriteOutside a s.buf.size) := if_neg (Nat.not_lt.mpr h)

theorem hostMove_put_outside (h : s.buf.size < n + 2) : hostMove (.put n) s = .fault (.putOutside n s.buf.size) :=
  if_pos h

/-- The buffer with two bytes stored at `n` and `n + 1`. -/
def Buffer.storeTwo (b : Buffer) (n : Nat) (x y : Byte) : Buffer := (b.setByte n x).setByte (n + 1) y

@[simp] theorem Buffer.storeTwo_size (b : Buffer) (n : Nat) (x y : Byte) : (b.storeTwo n x y).size = b.size := rfl

/-- The state with `RES` stored little-endian at `n`. -/
def stored (n : Nat) (s : State) : State := { s with buf := s.buf.storeTwo n (lowByte s.res) (highByte s.res) }

@[simp] theorem stored_buf (n : Nat) (s : State) :
    (stored n s).buf = s.buf.storeTwo n (lowByte s.res) (highByte s.res) := rfl
@[simp] theorem stored_res (n : Nat) (s : State) : (stored n s).res = s.res := rfl

/-- The store of a specified `RES`: both bytes are of it. -/
theorem hostMove_put_specified (h : n + 2 ≤ s.buf.size) (hspec : s.resSpecified = true) :
    hostMove (.put n) s = .next (stored n s) := by
  have hroom : ¬s.buf.size < n + Config.ckBytes := Nat.not_lt.mpr h
  rw [hostMove, hostPut, if_neg hroom]
  simp only [readResPort_specified _ hspec]
  rfl

/-- The store of an unspecified `RES`: each byte is of a draw of its own. -/
theorem hostMove_put_unspecified (h : n + 2 ≤ s.buf.size) (hspec : s.resSpecified = false) :
    hostMove (.put n) s = .next { s with
      buf := s.buf.storeTwo n (lowByte (Config.freeRes s.draws)) (highByte (Config.freeRes (s.draws + 1)))
      draws := s.draws + 2 } := by
  have hdrawn : ({ s with draws := s.draws + 1 } : State).resSpecified = false := hspec
  have hroom : ¬s.buf.size < n + Config.ckBytes := Nat.not_lt.mpr h
  rw [hostMove, hostPut, if_neg hroom]
  simp only [readResPort_unspecified _ hspec, readResPort_unspecified _ hdrawn]
  rfl

theorem hostMove_readRes_specified (hspec : s.resSpecified = true) :
    hostMove .readRes s = .next { s with reads := .res s.res :: s.reads } := by
  simp only [hostMove, hostReadRes, readResPort_specified s hspec]

theorem hostMove_readRes_unspecified (hspec : s.resSpecified = false) : hostMove .readRes s =
    .next { s with reads := .res (Config.freeRes s.draws) :: s.reads, draws := s.draws + 1 } := by
  simp only [hostMove, hostReadRes, readResPort_unspecified s hspec]

/-- A step that reads a specified `RES` hands it over and changes nothing else. -/
theorem step_readRes_specified {rest : List HostAction} (hpending : s.pending = .host .readRes :: rest)
    (hspec : s.resSpecified = true) : step s = .next { s with reads := .res s.res :: s.reads, pending := rest } :=
  (step_of_host hpending).trans (hostMove_readRes_specified hspec)

/-- A step that reads an unspecified `RES` hands over a fresh draw. -/
theorem step_readRes_unspecified {rest : List HostAction} (hpending : s.pending = .host .readRes :: rest)
    (hspec : s.resSpecified = false) : step s = .next { s with
      reads := .res (Config.freeRes s.draws) :: s.reads, draws := s.draws + 1, pending := rest } :=
  (step_of_host hpending).trans (hostMove_readRes_unspecified hspec)

/-- A step that stores a specified `RES`. -/
theorem step_put_specified {rest : List HostAction} (hpending : s.pending = .host (.put n) :: rest)
    (h : n + 2 ≤ s.buf.size) (hspec : s.resSpecified = true) : step s = .next (stored n (s.withPending rest)) :=
  (step_of_host hpending).trans (hostMove_put_specified h hspec)

/-- The buffer filled with the listed bytes; the draw is for bytes not listed, of which there are none. -/
def Buffer.ofBytes (bs : List Byte) (d : Nat) : Buffer := { size := bs.length, cells := cellsFrom 0 bs, draw := d }

@[simp] theorem Buffer.ofBytes_size (bs : List Byte) (d : Nat) : (Buffer.ofBytes bs d).size = bs.length := rfl

/-- The state with the listed bytes presented. -/
def filled (bs : List Byte) (s : State) : State := { s with buf := Buffer.ofBytes bs s.draws, draws := s.draws + 1 }

@[simp] theorem filled_buf (bs : List Byte) (s : State) : (filled bs s).buf = Buffer.ofBytes bs s.draws := rfl

theorem hostMove_buf (bs : List Byte) (s : State) : hostMove (.buf bs) s = .next (filled bs s) := rfl

theorem step_buf {bs : List Byte} {rest : List HostAction} (hpending : s.pending = .host (.buf bs) :: rest) :
    step s = .next (filled bs (s.withPending rest)) :=
  (step_of_host hpending).trans (hostMove_buf bs _)

/-- A filled buffer reads as the bytes it was filled with. -/
theorem memRead_ofBytes (bs : List Byte) (d a : Nat) : memRead (Buffer.ofBytes bs d) a = bs[a]? := by
  by_cases ha : a < bs.length
  · have hcell : lookupCell a (cellsFrom 0 bs) = some bs[a] := by
      rw [← List.getElem?_eq_getElem ha, ← lookupCell_cellsFrom 0 a bs, Nat.zero_add]
    rw [memRead_of_lt ha, Buffer.byteAt, Buffer.ofBytes, hcell, List.getElem?_eq_getElem ha]
    rfl
  · rw [memRead_of_le (Nat.not_lt.mp ha), List.getElem?_eq_none (Nat.not_lt.mp ha)]

/-- What a store of two bytes reads back as, and what it leaves alone. -/
theorem memRead_storeTwo {b : Buffer} (x y : Byte) (h : n + 2 ≤ b.size) :
    memRead (b.storeTwo n x y) n = some x ∧ memRead (b.storeTwo n x y) (n + 1) = some y ∧
    ∀ a, a ≠ n → a ≠ n + 1 → memRead (b.storeTwo n x y) a = memRead b a := by
  refine ⟨?_, memRead_setByte_same y (Nat.lt_of_succ_le h), fun a hlow hhigh => ?_⟩
  · rw [Buffer.storeTwo, memRead_setByte_other _ _ (Nat.succ_ne_self n).symm]
    exact memRead_setByte_same x (by omega)
  · rw [Buffer.storeTwo, memRead_setByte_other _ _ hhigh, memRead_setByte_other _ _ hlow]

/-- A range the host has written whole reads alike at every draw. -/
theorem blockBytes_of_rangeWritten {b : Buffer} (h : rangeWritten b n = true) (d : Nat) :
    blockBytes { b with draw := d } n = blockBytes b n := by
  refine List.map_congr_left fun a ha => ?_
  obtain ⟨x, hx⟩ := Option.isSome_iff_exists.mp (List.all_eq_true.mp h a ha)
  rw [Buffer.byteAt, Buffer.byteAt, hx]
  rfl

/-- Settles O45: the fields of the reset state, and those a new run keeps. -/
theorem resetSeedsCrcAndLeavesTheBuffer : Obligations.ResetSeedsCrcAndLeavesTheBuffer :=
  ⟨rfl, rfl, rfl, fun _ => ⟨rfl, rfl, rfl, rfl, rfl⟩⟩

/-- Settles O46: each port read's next state; the last clause at both values of the mark. -/
theorem portReadsChangeNothing : Obligations.PortReadsChangeNothing := by
  unfold Obligations.PortReadsChangeNothing
  refine ⟨fun _ => rfl, fun _ => hostMove_readRes_specified, fun s => ⟨_, rfl, ?_⟩⟩
  simp

/-- Settles O48: two reads, each with its own draw. -/
theorem unspecifiedResReadsAreDraws : Obligations.UnspecifiedResReadsAreDraws := by
  intro s rest hspec hpending
  exact ⟨_, (runSteps_succ (step_readRes_unspecified hpending hspec)).trans
    ((runSteps_one _).trans (step_readRes_unspecified rfl hspec)), rfl, rfl, hspec, rfl, rfl⟩

/-- Settles O49: the write's two cases, and the two read-after-write rules. -/
theorem hostWriteChangesOneByte : Obligations.HostWriteChangesOneByte :=
  ⟨fun _ _ b ha => ⟨_, hostMove_write ha, memRead_setByte_same b ha, fun _ => memRead_setByte_other _ b, rfl, rfl, rfl, rfl,
    rfl⟩, fun _ _ _ => hostMove_write_outside⟩

/-- Settles O50: the filled buffer reads as the listed bytes. -/
theorem dotBufPresentsItsBytes : Obligations.DotBufPresentsItsBytes := fun s bs =>
  ⟨_, hostMove_buf bs s, rfl, memRead_ofBytes bs _, rfl, rfl, rfl, rfl, rfl⟩

/-- Settles O51: a presented buffer lists no byte, so each reads as its free value; a written range never asks for one. -/
theorem unwrittenBytesAreFreeValues : Obligations.UnwrittenBytesAreFreeValues := by
  unfold Obligations.UnwrittenBytesAreFreeValues
  constructor
  · intro s m
    refine ⟨presentBuffer m s, rfl, rfl, fun a ha => memRead_of_lt ha, rfl, rfl, fun n hmax hn => ?_⟩
    exact ⟨_, exec_ckchunk_accepted hmax hn, rfl⟩
  · intro s i d hprepared
    obtain ⟨haccepted, hwritten⟩ := Bool.and_eq_true_iff.mp hprepared
    have haccepted' : accepted i { s with buf := { s.buf with draw := d } } = true := haccepted
    refine ⟨_, _, exec_of_accepted haccepted, exec_of_accepted haccepted', ?_⟩
    cases i with
    | ckseed | ckbyte b | ckfin => exact ⟨rfl, rfl⟩
    | ckhdr => exact absorbBuffer_registers_congr (blockBytes_of_rangeWritten hwritten d)
    | ckchunk n => exact absorbBuffer_registers_congr (blockBytes_of_rangeWritten hwritten d)

/-- Settles O52: the store's next state for a specified and an unspecified `RES`, read back by `memRead_storeTwo`. -/
theorem resultIsStoredLittleEndian : Obligations.ResultIsStoredLittleEndian := by
  unfold Obligations.ResultIsStoredLittleEndian
  refine ⟨fun s n hroom hspec => ?specified, fun s n hroom hspec => ?unspecified, le16_lowByte_highByte, fun _ => rfl⟩
  case specified =>
    obtain ⟨hlow, hhigh, hother⟩ := memRead_storeTwo (lowByte s.res) (highByte s.res) hroom
    exact ⟨_, hostMove_put_specified hroom hspec, hlow, hhigh, hother, rfl, rfl, rfl, hspec, rfl, rfl⟩
  case unspecified =>
    obtain ⟨hlow, hhigh, hother⟩ :=
      memRead_storeTwo (lowByte (Config.freeRes s.draws)) (highByte (Config.freeRes (s.draws + 1))) hroom
    exact ⟨_, hostMove_put_unspecified hroom hspec, hlow, hhigh, hother, rfl, rfl, rfl, hspec, rfl, rfl⟩

/-- Settles O53: the store's check of its room. -/
theorem putOutsideTheBufferFaults : Obligations.PutOutsideTheBufferFaults := fun _ _ => hostMove_put_outside

end Sys2Proof.Machine
end

section
/-! The result between two commands (20_memory.md R42): what stands between a finalising command and a read leaves `RES`. -/

namespace Sys2Proof.Machine

/-- An action that may stand between a finalising command and the read of its result: a host move, `CKSEED` or `CKBYTE`. -/
def keepsResult (x : HostAction) : Prop :=
  (∃ m, x = .host m) ∨ x = .cmd 0x1000 ∨ ∃ b : Byte, x = .cmd (0x2000 ||| b.setWidth 16)

/-- An action that may fault: a host write or a store. -/
def mayFault (x : HostAction) : Prop := (∃ a b, x = .host (.write a b)) ∨ ∃ n, x = .host (.put n)

variable {s t : State} {x : HostAction} {between rest : List HostAction}

theorem step_keepsResult (hpending : s.pending = x :: rest) (hx : keepsResult x) (hstep : step s = .next t) :
    t.res = s.res ∧ t.resSpecified = s.resSpecified ∧ t.pending = rest := by
  rcases hx with ⟨m, rfl⟩ | rfl | ⟨b, rfl⟩
  · rw [step_of_host hpending] at hstep
    obtain ⟨-, hres, hspec, hrest⟩ := hostMove_next_registers hstep
    exact ⟨hres, hspec, hrest⟩
  · rw [step_of_cmd (i := .ckseed) hpending rfl] at hstep
    obtain ⟨-, rfl⟩ := exec_eq_next_iff.mp hstep
    exact ⟨rfl, rfl, rfl⟩
  · rw [step_of_cmd hpending (decode_byteWord b)] at hstep
    obtain ⟨-, rfl⟩ := exec_eq_next_iff.mp hstep
    exact ⟨rfl, rfl, rfl⟩

/-- Only a host write and a store may stop a step that keeps the result. -/
theorem step_completes (hpending : s.pending = x :: rest) (hx : keepsResult x) (hsafe : ¬mayFault x) :
    ∃ t, step s = .next t := by
  rcases hx with ⟨m, rfl⟩ | rfl | ⟨b, rfl⟩
  · rw [step_of_host hpending]
    cases m with
    | buf | present | readRes | readCrc => exact ⟨_, rfl⟩
    | write a b => exact absurd (.inl ⟨a, b, rfl⟩) hsafe
    | put n => exact absurd (.inr ⟨n, rfl⟩) hsafe
  · exact ⟨_, step_of_cmd (i := .ckseed) hpending rfl⟩
  · exact ⟨_, step_of_cmd hpending (decode_byteWord b)⟩

theorem runSteps_keepsResult (hpending : s.pending = between ++ rest) (hbetween : ∀ x ∈ between, keepsResult x)
    (hrun : runSteps between.length s = .next t) :
    t.res = s.res ∧ t.resSpecified = s.resSpecified ∧ t.pending = rest := by
  induction between generalizing s with
  | nil =>
    obtain rfl : s = t := by simpa using hrun
    exact ⟨rfl, rfl, hpending⟩
  | cons x between ih =>
    obtain ⟨u, hstep, hlater⟩ := runSteps_succ_next hrun
    obtain ⟨hres, hspec, hnext⟩ := step_keepsResult hpending (hbetween x List.mem_cons_self) hstep
    obtain ⟨hres', hspec', hrest⟩ := ih hnext (fun y hy => hbetween y (List.mem_cons_of_mem x hy)) hlater
    exact ⟨hres'.trans hres, hspec'.trans hspec, hrest⟩

theorem runSteps_completes (hpending : s.pending = between ++ rest) (hbetween : ∀ x ∈ between, keepsResult x)
    (hsafe : ∀ x ∈ between, ¬mayFault x) : ∃ t, runSteps between.length s = .next t := by
  induction between generalizing s with
  | nil => exact ⟨s, rfl⟩
  | cons x between ih =>
    obtain ⟨u, hstep⟩ := step_completes hpending (hbetween x List.mem_cons_self) (hsafe x List.mem_cons_self)
    obtain ⟨-, -, hnext⟩ := step_keepsResult hpending (hbetween x List.mem_cons_self) hstep
    obtain ⟨t, hrun⟩ := ih hnext (fun y hy => hbetween y (List.mem_cons_of_mem x hy))
      (fun y hy => hsafe y (List.mem_cons_of_mem x hy))
    exact ⟨t, (runSteps_succ hstep).trans hrun⟩

/-- A finalising command and the result it writes: `Fin(CRC)` for `CKFIN`, the checksum of the range for a block command. -/
def finalisesTo (i : Instr) (s : State) (v : Word) : Prop :=
  (i = .ckfin ∧ v = finalise s.crc) ∨
  ∃ (n : Nat) (xs : List Byte), (i = .ckchunk n ∨ (i = .ckhdr ∧ n = 17)) ∧ n ≤ 1024 ∧ n ≤ s.buf.size ∧
    xs.length = n ∧ (∀ a, a < n → memRead s.buf a = xs[a]?) ∧ checksum16 xs n = some v

theorem exec_of_finalisesTo {i : Instr} {v : Word} (h : finalisesTo i s v) :
    ∃ t, exec i s = .next t ∧ t.res = v ∧ t.resSpecified = true ∧ t.pending = s.pending := by
  rcases h with ⟨rfl, rfl⟩ | ⟨n, xs, hi, hmax, hsize, hlength, hread, hchecksum⟩
  · exact ⟨_, rfl, rfl, rfl, rfl⟩
  · have hexec : exec i s = .next (absorbBuffer n s) := by
      rcases hi with rfl | ⟨rfl, rfl⟩
      · exact exec_ckchunk_accepted hmax hsize
      · exact exec_ckhdr_accepted hsize
    have hres : finalise (runBytes 0xFFFF xs) = v := by
      rw [← hlength, checksum16_length] at hchecksum
      exact Option.some.inj hchecksum
    rw [absorbBuffer_of_memRead hsize hlength hread, hres] at hexec
    exact ⟨_, hexec, rfl, rfl, rfl⟩

/-- Settles O47: the finalising step writes `RES` and marks it, the actions between keep both, and the read hands it over. -/
theorem resReadReturnsTheLatestResult : Obligations.ResReadReturnsTheLatestResult := by
  intro s w v i between rest hpending hd hfinal hbetween
  obtain ⟨u, hexec, hres, hspec, hnext⟩ := exec_of_finalisesTo
    (s := s.withPending (between ++ .host .readRes :: rest)) hfinal
  have hstep : step s = .next u := (step_of_cmd hpending hd).trans hexec
  constructor
  · intro hsafe
    have hnofault : ∀ x ∈ between, ¬mayFault x := by
      rintro x hx (⟨a, b, rfl⟩ | ⟨n, rfl⟩)
      · exact (hsafe _ hx).1 a b rfl
      · exact (hsafe _ hx).2 n rfl
    obtain ⟨t, hrun⟩ := runSteps_completes hnext hbetween hnofault
    exact ⟨t, (runSteps_succ hstep).trans hrun⟩
  · intro t hrun
    obtain ⟨hres', hspec', hrest⟩ := runSteps_keepsResult hnext hbetween ((runSteps_succ hstep).symm.trans hrun)
    refine ⟨hres'.trans hres, ?_⟩
    rw [runSteps_add 1 hrun, runSteps_one, step_readRes_specified hrest (hspec'.trans hspec), hres', hres]

end Sys2Proof.Machine
end

section
/-! Storing a result behind the bytes it was computed from, and computing it again (70_reset_and_hazards.md R137). -/

namespace Sys2Proof.Machine

variable {s : State} {n : Nat} {b : Buffer} {x y : Byte} {rest : List HostAction}

/-- A store behind a range is not among the bytes a block command reads from it. -/
theorem blockBytes_storeTwo (h : n + 2 ≤ b.size) : blockBytes (b.storeTwo n x y) n = blockBytes b n := by
  obtain ⟨-, -, hother⟩ := memRead_storeTwo x y h
  have hn : n ≤ b.size := by omega
  exact blockBytes_congr hn hn fun i hi => hother i (by omega) (by omega)

theorem blockBytes_add_two (b : Buffer) (n : Nat) :
    blockBytes b (n + 2) = blockBytes b n ++ [b.byteAt n, b.byteAt (n + 1)] := by
  simp [blockBytes, List.range_succ]

/-- A range that takes in the two stored bytes ends with them. -/
theorem blockBytes_storeTwo_add_two (h : n + 2 ≤ b.size) :
    blockBytes (b.storeTwo n x y) (n + 2) = blockBytes b n ++ [x, y] := by
  have hlow : (b.storeTwo n x y).byteAt n = x := by
    rw [Buffer.storeTwo, Buffer.byteAt_setByte_other _ _ (Nat.succ_ne_self n).symm, Buffer.byteAt_setByte_same]
  rw [blockBytes_add_two, blockBytes_storeTwo h, hlow, Buffer.storeTwo, Buffer.byteAt_setByte_same]

/-- A block command that reads `n` bytes and is not out of range. -/
def isBlock (i : Instr) (n : Nat) : Prop := (i = .ckchunk n ∧ n ≤ 1024) ∨ (i = .ckhdr ∧ n = 17)

theorem isBlock_ckchunk (h : n ≤ 1024) : isBlock (.ckchunk n) n := .inl ⟨rfl, h⟩

theorem isBlock_ckhdr : isBlock .ckhdr 17 := .inr ⟨rfl, rfl⟩

/-- A step on the word of a block command whose range the buffer has. -/
theorem step_block {i : Instr} (hi : isBlock i n) (hpending : s.pending = .cmd (encode i) :: rest)
    (hn : n ≤ s.buf.size) : step s = .next (absorbBuffer n (s.withPending rest)) := by
  rcases hi with ⟨rfl, hmax⟩ | ⟨rfl, rfl⟩
  · have hfits : (Instr.ckchunk n).wellFormed = true := decide_eq_true (by omega)
    exact (step_of_cmd hpending (decode_encode hfits)).trans (exec_ckchunk_accepted hmax hn)
  · exact (step_of_cmd (i := .ckhdr) hpending (decode_encode rfl)).trans (exec_ckhdr_accepted hn)

/-- The store of a specified result and a block command after it. -/
theorem runSteps_put_block {i : Instr} {m : Nat} (hi : isBlock i m)
    (hpending : s.pending = [.host (.put n), .cmd (encode i)]) (hroom : n + 2 ≤ s.buf.size) (hm : m ≤ s.buf.size)
    (hspec : s.resSpecified = true) : runSteps 2 s = .next (absorbBuffer m (stored n (s.withPending []))) := by
  rw [runSteps_succ (step_put_specified hpending hroom hspec), runSteps_one]
  exact step_block hi rfl hm

/-- Computing again after the store reads the range the first command read. -/
theorem recompute_same {i : Instr} (hi : isBlock i n) (hroom : n + 2 ≤ s.buf.size) : ∃ t u,
    runSteps 1 (s.withPending [.cmd (encode i), .host (.put n), .cmd (encode i)]) = .next t ∧
    runSteps 2 t = .next u ∧ u.crc = t.crc ∧ u.res = t.res := by
  have hn : n ≤ s.buf.size := by omega
  refine ⟨_, _, (runSteps_one _).trans (step_block hi rfl hn), runSteps_put_block hi rfl hroom hn rfl, ?_⟩
  exact absorbBuffer_registers_congr (blockBytes_storeTwo hroom)

/-- Settles O55: the second command reads the range of the first, or that range with the stored checksum behind it, which
changes every register. -/
theorem recomputationAfterTheStore : Obligations.RecomputationAfterTheStore := by
  unfold Obligations.RecomputationAfterTheStore
  refine ⟨fun s n hmax hroom => recompute_same (isBlock_ckchunk hmax) hroom,
    fun s hroom => recompute_same isBlock_ckhdr hroom, fun s n hmax hroom => ?longer⟩
  case longer =>
    have hn : n ≤ s.buf.size := by omega
    refine ⟨_, _, (runSteps_one _).trans (step_block (isBlock_ckchunk (by omega)) rfl hn),
      runSteps_put_block (isBlock_ckchunk hmax) rfl hroom hroom rfl, fun hsame => ?_⟩
    have hregisters := finalise_injective hsame
    have hbytes := blockBytes_storeTwo_add_two (b := s.buf)
      (x := lowByte (finalise (runBytes Config.seed (blockBytes s.buf n))))
      (y := highByte (finalise (runBytes Config.seed (blockBytes s.buf n)))) hroom
    refine runBytes_storedBytes_finalise_ne (runBytes Config.seed (blockBytes s.buf n)) ?_
    rw [← runBytes_append, storedBytes, ← hbytes]
    exact hregisters

end Sys2Proof.Machine
end

section
/-! Prepared frames (20_memory.md R37, R38, R41): what the host's three actions leave in the buffer, when a frame is
checksum-consistent, and what a header frame gives back. -/

namespace Sys2Proof.Machine

variable {bytes name : List Byte}

/-- A buffer filled with a frame's bytes and two more reads, after the store of a word behind the bytes, as the frame. -/
theorem memRead_ofBytes_storeTwo (bytes : List Byte) (d : Nat) (v : Word) (a : Nat) :
    memRead ((Buffer.ofBytes (bytes ++ [0, 0]) d).storeTwo bytes.length (lowByte v) (highByte v)) a =
      (frameOf bytes v)[a]? := by
  obtain ⟨hlow, hhigh, hother⟩ := memRead_storeTwo (b := Buffer.ofBytes (bytes ++ [0, 0]) d) (n := bytes.length)
    (lowByte v) (highByte v) (by simp)
  by_cases hfirst : a = bytes.length
  · rw [hfirst, hlow, frameOf, List.getElem?_append_right (Nat.le_refl _), Nat.sub_self]
    rfl
  by_cases hsecond : a = bytes.length + 1
  · rw [hsecond, hhigh, frameOf, List.getElem?_append_right (Nat.le_add_right _ 1), Nat.add_sub_cancel_left]
    rfl
  rw [hother a hfirst hsecond, memRead_ofBytes]
  rcases Nat.lt_or_ge a bytes.length with hin | hout
  · rw [frameOf, List.getElem?_append_left hin, List.getElem?_append_left hin]
  · have hbeyond : ∀ x y : Byte, (bytes ++ [x, y])[a]? = none := fun x y =>
      List.getElem?_eq_none (by simp only [List.length_append, List.length_cons, List.length_nil]; omega)
    rw [hbeyond]
    exact (hbeyond _ _).symm

/-- A block command over the bytes of a filled buffer takes in those bytes. -/
theorem blockBytes_ofBytes_append (bytes more : List Byte) (d : Nat) :
    blockBytes (Buffer.ofBytes (bytes ++ more) d) bytes.length = bytes :=
  blockBytes_eq_of_memRead (by simp) rfl fun a ha => by rw [memRead_ofBytes, List.getElem?_append_left ha]

/-- The host's three actions for a frame: fill the buffer, run the block command over the bytes, store the result. -/
theorem runSteps_frame {i : Instr} (hi : isBlock i bytes.length) (s : State) (rest : List HostAction) :
    ∃ t, runSteps 3 (s.withPending
        (.host (.buf (bytes ++ [0, 0])) :: .cmd (encode i) :: .host (.put bytes.length) :: rest)) = .next t ∧
      t.pending = rest ∧ t.res = finalise (runBytes Config.seed bytes) ∧ t.buf.size = bytes.length + 2 ∧
      ∀ a, memRead t.buf a = (frameOf bytes (finalise (runBytes Config.seed bytes)))[a]? := by
  have hsize : (bytes ++ [(0 : Byte), 0]).length = bytes.length + 2 := List.length_append
  have hrun : runSteps 3 (s.withPending
      (.host (.buf (bytes ++ [0, 0])) :: .cmd (encode i) :: .host (.put bytes.length) :: rest)) =
      .next (stored bytes.length ((absorbBuffer bytes.length (filled (bytes ++ [0, 0]) s)).withPending rest)) := by
    rw [runSteps_succ (step_buf rfl), runSteps_succ (step_block hi rfl (by simp)), runSteps_one,
      step_put_specified rfl (by simp) rfl]
    rfl
  refine ⟨_, hrun, rfl, ?res, hsize, fun a => ?bytes⟩
  case res => simp only [stored_res, State.withPending_res, absorbBuffer_res, filled_buf, blockBytes_ofBytes_append]
  case bytes =>
    rw [stored_buf, State.withPending_buf, State.withPending_res, absorbBuffer_buf, absorbBuffer_res, filled_buf,
      blockBytes_ofBytes_append, memRead_ofBytes_storeTwo]

/-- When a frame is checksum-consistent (R41). -/
theorem frameConsistent_iff (frame : List Byte) (n : Nat) : frameConsistent frame n = true ↔
    ∃ b0 b1, frame[n]? = some b0 ∧ frame[n + 1]? = some b1 ∧ checksum16 frame n = some (le16 b0 b1) := by
  rw [frameConsistent]
  cases frame[n]? with
  | none => simp
  | some b0 =>
    cases frame[n + 1]? with
    | none => simp
    | some b1 => simp

theorem headerConsistent_iff (frame : List Byte) : headerConsistent frame = true ↔
    frame.length = 19 ∧ frameConsistent frame 17 = true := by
  rw [headerConsistent, Bool.and_eq_true, beq_iff_eq]
  rfl

theorem chunkConsistent_iff (frame : List Byte) : chunkConsistent frame = true ↔
    ∃ n, frame.length = n + 2 ∧ frameConsistent frame n = true := by
  rw [chunkConsistent, Bool.and_eq_true, decide_eq_true_eq]
  constructor
  · rintro ⟨hlength, hconsistent⟩
    exact ⟨_, (Nat.sub_add_cancel hlength).symm, hconsistent⟩
  · rintro ⟨n, hlength, hconsistent⟩
    rw [hlength]
    exact ⟨Nat.le_add_left _ _, hconsistent⟩

/-- Bytes with their stored checksum behind them are a consistent frame. -/
theorem frameConsistent_frameOf (bytes : List Byte) :
    frameConsistent (frameOf bytes (finalise (runBytes Config.seed bytes))) bytes.length = true := by
  refine (frameConsistent_iff _ _).mpr ⟨lowByte (finalise (runBytes Config.seed bytes)),
    highByte (finalise (runBytes Config.seed bytes)), ?low, ?high, ?checksum⟩
  case low =>
    rw [frameOf, List.getElem?_append_right (Nat.le_refl _), Nat.sub_self]
    rfl
  case high =>
    rw [frameOf, List.getElem?_append_right (Nat.le_add_right _ 1), Nat.add_sub_cancel_left]
    rfl
  case checksum => rw [frameOf, checksum16_append, le16_lowByte_highByte]

theorem frameOf_length (bytes : List Byte) (v : Word) : (frameOf bytes v).length = bytes.length + 2 :=
  List.length_append

/-- Settles O57: the three actions at the chunk's length, and the checks as equivalences. -/
theorem preparedChunkFrameIsConsistent : Obligations.PreparedChunkFrameIsConsistent := by
  unfold Obligations.PreparedChunkFrameIsConsistent
  refine ⟨fun s bytes rest _ hmax => ?prepared, frameConsistent_iff, fun frame => ?header, fun frame => ?chunk,
    fun frame => ⟨fun h => ?answerHeader, fun h => ?answerChunk⟩⟩
  case prepared =>
    obtain ⟨t, hrun, hpending, hres, hsize, hread⟩ := runSteps_frame (isBlock_ckchunk hmax) s rest
    refine ⟨t, _, hrun, hpending, hres, checksum16_length bytes, hsize, hread, ?_⟩
    exact (chunkConsistent_iff _).mpr ⟨_, frameOf_length _ _, frameConsistent_frameOf bytes⟩
  case header => rw [headerConsistent_iff, frameConsistent_iff]
  case chunk => simp only [chunkConsistent_iff, frameConsistent_iff, exists_and_left]
  case answerHeader => rw [h]; rfl
  case answerChunk => rw [h]; rfl

theorem headerInput_length (hname : name.length ≤ 12) (length : BitVec 32) :
    (headerInput name length).length = 17 := by
  have hfour : (le32Bytes length).length = 4 := rfl
  rw [headerInput, List.length_append, List.length_append, List.length_replicate, hfour, Config.nameField]
  omega

/-- The name buffer of a header holds the name and zeros, so the name is read back up to the first of them. -/
theorem declaredName_headerInput_append (hname : name.length ≤ 12) (hnonzero : ∀ b ∈ name, b ≠ 0) (length : BitVec 32)
    (more : List Byte) : declaredName (headerInput name length ++ more) = name := by
  have hpad : Config.nameField - name.length = (12 - name.length) + 1 := by
    rw [Config.nameField]
    omega
  have htake : (headerInput name length ++ more).take 12 = name ++ List.replicate (12 - name.length) 0 := by
    rw [headerInput, List.append_assoc, List.append_assoc, List.take_append, List.take_of_length_le hname, hpad,
      List.take_append_of_le_length (by simp), List.take_replicate, Nat.min_eq_left (Nat.le_succ _)]
  rw [declaredName, Config.nameMax, htake, List.takeWhile_append_of_pos (by simpa using hnonzero),
    List.takeWhile_replicate]
  simp

/-- Four bytes taken from a length and put together again are the length. -/
theorem le32_join (v : BitVec 32) : (v.extractLsb' 0 8).setWidth 32 ||| ((v.extractLsb' 8 8).setWidth 32 <<< 8) |||
    ((v.extractLsb' 16 8).setWidth 32 <<< 16) ||| ((v.extractLsb' 24 8).setWidth 32 <<< 24) = v := by
  ext i hi
  have hpart : ∀ k, (((v.extractLsb' k 8).setWidth 32 <<< k) : BitVec 32)[i] = (decide (k ≤ i ∧ i < k + 8) && v[i]) := by
    intro k
    by_cases hk : k ≤ i
    · have hsource : k + (i - k) = i := by omega
      have hwidth : (i - k < 8) ↔ i < k + 8 := by omega
      simp [hk, hsource, hwidth, Nat.not_lt.mpr hk, BitVec.getLsbD_eq_getElem hi]
    · simp [hk, Nat.lt_of_not_le hk]
  have hzero := hpart 0
  rw [BitVec.shiftLeft_zero] at hzero
  simp only [BitVec.getElem_or, hzero, hpart]
  cases v[i] with
  | false => simp only [Bool.and_false, Bool.or_self]
  | true =>
    simp only [Bool.and_true, Bool.or_eq_true, decide_eq_true_eq]
    omega

/-- The four bytes behind the name buffer are the length. -/
theorem declaredLength_headerInput_append (hname : name.length ≤ 12) (length : BitVec 32) (more : List Byte) :
    declaredLength (headerInput name length ++ more) = some length := by
  have hfield : (name ++ List.replicate (Config.nameField - name.length) (0 : Byte)).length = Config.nameField := by
    rw [List.length_append, List.length_replicate, Config.nameField]
    omega
  have hdrop : (headerInput name length ++ more).drop Config.nameField = le32Bytes length ++ more := by
    rw [headerInput, List.append_assoc, List.drop_left' hfield]
  rw [declaredLength, hdrop]
  exact congrArg some (le32_join length)

/-- Settles O56: the three actions over the 17 bytes of the header, which name and length are read back from. -/
theorem preparedHeaderFrameIsConsistent : Obligations.PreparedHeaderFrameIsConsistent := by
  intro s name length rest hname hnonzero
  have hlength := headerInput_length hname length
  have hblock : isBlock .ckhdr (headerInput name length).length := .inr ⟨rfl, hlength⟩
  obtain ⟨t, hrun, hpending, hres, hsize, hread⟩ := runSteps_frame hblock s rest
  have hchecksum := checksum16_length (headerInput name length)
  have hconsistent := frameConsistent_frameOf (headerInput name length)
  rw [hlength] at hrun hsize hchecksum hconsistent
  refine ⟨t, _, hrun, hpending, hres, hchecksum, hsize, hread, ?_, declaredName_headerInput_append hname hnonzero _ _,
    declaredLength_headerInput_append hname _ _⟩
  exact (headerConsistent_iff _).mpr ⟨by rw [frameOf_length, hlength], hconsistent⟩

end Sys2Proof.Machine
end

section
/-! The chunks of a source (20_memory.md R38). -/

namespace Sys2Proof.Machine

theorem readChunks_nil (fuel : Nat) : readChunks fuel [] = [] := by cases fuel <;> rfl

theorem readChunks_succ {source : List Byte} (fuel : Nat) (h : source ≠ []) : readChunks (fuel + 1) source =
    source.take Config.chunkMax :: readChunks fuel (source.drop Config.chunkMax) := by
  cases source with
  | nil => exact absurd rfl h
  | cons b rest => rfl

/-- A read leaves less than it found. -/
theorem length_drop_chunkMax_le {source : List Byte} {fuel : Nat} (h : source ≠ []) (hfuel : source.length ≤ fuel + 1) :
    (source.drop Config.chunkMax).length ≤ fuel := by
  have hpos := List.length_pos_iff.mpr h
  rw [List.length_drop, Config.chunkMax]
  omega

/-- The chunks put together are the source, where there are reads enough. -/
theorem readChunks_flatten {fuel : Nat} {source : List Byte} (hfuel : source.length ≤ fuel) :
    (readChunks fuel source).flatten = source := by
  induction fuel generalizing source with
  | zero =>
    obtain rfl := List.length_eq_zero_iff.mp (Nat.le_zero.mp hfuel)
    rfl
  | succ fuel ih =>
    by_cases h : source = []
    · rw [h, readChunks_nil]
      rfl
    · rw [readChunks_succ fuel h, List.flatten_cons, ih (length_drop_chunkMax_le h hfuel), List.take_append_drop]

/-- No chunk is empty and none is above the largest. -/
theorem length_of_mem_readChunks {fuel : Nat} {source c : List Byte} (hc : c ∈ readChunks fuel source) :
    1 ≤ c.length ∧ c.length ≤ Config.chunkMax := by
  induction fuel generalizing source with
  | zero => simp [readChunks] at hc
  | succ fuel ih =>
    by_cases h : source = []
    · simp [h, readChunks_nil] at hc
    · rw [readChunks_succ fuel h, List.mem_cons] at hc
      rcases hc with rfl | hc
      · have hpos := List.length_pos_iff.mpr h
        rw [List.length_take, Config.chunkMax]
        omega
      · exact ih hc

/-- A chunk with another behind it is full. -/
theorem length_of_mem_dropLast_readChunks {fuel : Nat} {source c : List Byte}
    (hc : c ∈ (readChunks fuel source).dropLast) : c.length = Config.chunkMax := by
  induction fuel generalizing source with
  | zero => simp [readChunks] at hc
  | succ fuel ih =>
    by_cases h : source = []
    · simp [h, readChunks_nil] at hc
    · rw [readChunks_succ fuel h] at hc
      by_cases hlast : source.drop Config.chunkMax = []
      · simp [hlast, readChunks_nil] at hc
      · cases hlater : readChunks fuel (source.drop Config.chunkMax) with
        | nil => simp [hlater] at hc
        | cons d ds =>
          rw [hlater, List.dropLast_cons_cons, ← hlater, List.mem_cons] at hc
          rcases hc with rfl | hc
          · rw [List.length_take, Nat.min_eq_left]
            exact Nat.le_of_not_le fun hle => hlast (List.drop_eq_nil_of_le hle)
          · exact ih hc

/-- Settles O58: the three facts about every source, and the reads of a source of 2500 bytes. -/
theorem sourceIsReadInChunks : Obligations.SourceIsReadInChunks := by
  unfold Obligations.SourceIsReadInChunks
  refine ⟨fun source => ⟨readChunks_flatten (Nat.le_refl _), fun _ => length_of_mem_readChunks,
    fun _ => length_of_mem_dropLast_readChunks⟩, fun source hlength => ?sample, rfl⟩
  case sample =>
    have hnext : ∀ (fuel : Nat) (k : Nat), k < 2500 → (readChunks (fuel + 1) (source.drop k)).map List.length =
        min 1024 (2500 - k) :: (readChunks fuel (source.drop (k + 1024))).map List.length := by
      intro fuel k hk
      have hrest : source.drop k ≠ [] := List.ne_nil_of_length_pos (by rw [List.length_drop]; omega)
      rw [readChunks_succ fuel hrest, List.map_cons, List.length_take, List.length_drop, List.drop_drop, hlength]
      rfl
    have hend : source.drop 3072 = [] := List.drop_eq_nil_of_le (by omega)
    have hstart : sourceChunks source = readChunks 2500 (source.drop 0) := by rw [sourceChunks, hlength, List.drop_zero]
    rw [hstart, hnext 2499 0 (by decide), hnext 2498 1024 (by decide), hnext 2497 2048 (by decide), hend, readChunks_nil]
    rfl

end Sys2Proof.Machine
end

section
/-! The assembler (30_encoding.md R58, R59): the tokens of a line with one operand, the value of a number's digits in any base up
to 16, and the words of the commands. -/

namespace Sys2Proof.Machine

/-- A character that the tokeniser adds to the word it is reading. -/
def isWordChar (c : Char) : Bool := c != '\'' && c != ';' && c != ' ' && c != '\t' && c != ','

theorem tokenise_wordChar {c : Char} (hc : isWordChar c = true) (acc rest : List Char) :
    tokenise acc (c :: rest) = tokenise (c :: acc) rest := by
  simp only [isWordChar, Bool.and_eq_true, bne_iff_ne] at hc
  obtain ⟨⟨⟨⟨hquote, hsemicolon⟩, hspace⟩, htab⟩, hcomma⟩ := hc
  rw [tokenise, if_neg hsemicolon, if_neg (not_or.mpr ⟨hspace, htab⟩), if_neg hcomma]
  exact fun _ _ h => absurd h hquote

theorem tokenise_word {word : List Char} (hword : ∀ c ∈ word, isWordChar c = true) (acc rest : List Char) :
    tokenise acc (word ++ rest) = tokenise (word.reverse ++ acc) rest := by
  induction word generalizing acc with
  | nil => rfl
  | cons c word ih =>
    rw [List.cons_append, tokenise_wordChar (hword c List.mem_cons_self),
      ih (fun d hd => hword d (List.mem_cons_of_mem c hd)), List.reverse_cons, List.append_assoc]
    rfl

theorem tokenise_nil (acc : List Char) : tokenise acc [] = some (endWord acc []) := rfl

theorem tokenise_space (acc rest : List Char) :
    tokenise acc (' ' :: rest) = (tokenise [] rest).map (endWord acc) := rfl

theorem endWord_of_ne_nil {acc : List Char} (h : acc ≠ []) (ts : List Token) :
    endWord acc ts = .word acc.reverse :: ts := by
  rw [endWord, if_neg (by simpa using h)]

/-- A word alone is one token. -/
theorem tokenise_single_word {word : List Char} (hne : word ≠ []) (hword : ∀ c ∈ word, isWordChar c = true) :
    tokenise [] word = some [.word word] := by
  have htoken := tokenise_word hword [] []
  rw [List.append_nil, List.append_nil, tokenise_nil, endWord_of_ne_nil (by simpa using hne),
    List.reverse_reverse] at htoken
  exact htoken

theorem tokenise_quoted (c : Char) : tokenise [] ['\'', c, '\''] = some [.quoted c] := rfl

/-- A keyword, a space and one number make the keyword's line with that operand. -/
theorem parseLine_operand {keyword operand : List Char} {token : Token} {v : Nat} (hne : keyword ≠ [])
    (hkeyword : keyword.all isWordChar = true) (htoken : tokenise [] operand = some [token])
    (hvalue : numberValue token = some v) : parseLine (keyword ++ ' ' :: operand) = lineOf keyword [v] := by
  rw [parseLine, tokenise_word (List.all_eq_true.mp hkeyword), tokenise_space, htoken, Option.map_some,
    endWord_of_ne_nil (by simpa using hne), List.append_nil, List.reverse_reverse]
  simp only [operandList, hvalue, Option.map_some, Option.bind_some]

/-- Every digit below 16 has its value back, and is a word's character other than `x`. -/
theorem digitChar_facts : ∀ d, d < 16 → digitValue d.digitChar = some d ∧ isWordChar d.digitChar = true ∧
    d.digitChar ≠ 'x' := by decide

theorem exists_of_mem_toDigits {b n : Nat} (hb : 1 < b) {c : Char} (hc : c ∈ Nat.toDigits b n) :
    ∃ d, d < b ∧ c = d.digitChar := by
  induction n using Nat.strongRecOn with
  | ind n ih =>
    rcases Nat.lt_or_ge n b with hsmall | hlarge
    · rw [Nat.toDigits_of_lt_base hsmall, List.mem_singleton] at hc
      exact ⟨n, hsmall, hc⟩
    · rw [Nat.toDigits_of_base_le hb hlarge, List.mem_append, List.mem_singleton] at hc
      rcases hc with hc | hc
      · exact ih (n / b) (Nat.div_lt_self (by omega) hb) hc
      · exact ⟨n % b, Nat.mod_lt n (by omega), hc⟩

theorem isWordChar_of_mem_toDigits {b n : Nat} (hb : 1 < b) (hmax : b ≤ 16) {c : Char} (hc : c ∈ Nat.toDigits b n) :
    isWordChar c = true ∧ c ≠ 'x' := by
  obtain ⟨d, hd, rfl⟩ := exists_of_mem_toDigits hb hc
  exact (digitChar_facts d (by omega)).2

theorem digitsValue_append (base acc : Nat) (xs ys : List Char) :
    digitsValue base acc (xs ++ ys) = (digitsValue base acc xs).bind (fun v => digitsValue base v ys) := by
  induction xs generalizing acc with
  | nil => rfl
  | cons c xs ih =>
    rw [List.cons_append, digitsValue, digitsValue]
    cases digitValue c with
    | none => rfl
    | some d =>
      by_cases hd : d < base
      · simp only [hd, if_true, ih]
      · simp only [hd, if_false, Option.bind_none]

theorem digitsValue_digitChar {b d : Nat} (hmax : b ≤ 16) (hd : d < b) (acc : Nat) :
    digitsValue b acc [d.digitChar] = some (acc * b + d) := by
  obtain ⟨hvalue, -⟩ := digitChar_facts d (by omega)
  simp only [digitsValue, hvalue, hd, if_true]

/-- The digits of a number are worth the number, in every base up to 16. -/
theorem digitsValue_toDigits {b : Nat} (hb : 1 < b) (hmax : b ≤ 16) (n : Nat) :
    digitsValue b 0 (Nat.toDigits b n) = some n := by
  induction n using Nat.strongRecOn with
  | ind n ih =>
    rcases Nat.lt_or_ge n b with hsmall | hlarge
    · rw [Nat.toDigits_of_lt_base hsmall, digitsValue_digitChar hmax hsmall, Nat.zero_mul, Nat.zero_add]
    · rw [Nat.toDigits_of_base_le hb hlarge, digitsValue_append, ih (n / b) (Nat.div_lt_self (by omega) hb),
        Option.bind_some, digitsValue_digitChar hmax (Nat.mod_lt n (by omega)), Nat.div_add_mod']

theorem numberValue_decimal (n : Nat) : numberValue (.word (Nat.toDigits 10 n)) = some n := by
  rw [← digitsValue_toDigits (b := 10) (by decide) (by decide) n]
  have hnox : ∀ c ∈ Nat.toDigits 10 n, c ≠ 'x' := fun c hc =>
    (isWordChar_of_mem_toDigits (by decide) (by decide) hc).2
  cases hdigits : Nat.toDigits 10 n with
  | nil => exact absurd hdigits Nat.toDigits_ne_nil
  | cons d ds =>
    rw [numberValue]
    rintro d' ds' - hds
    exact hnox 'x' (by rw [hdigits, hds]; simp) rfl

theorem numberValue_hexadecimal (n : Nat) : numberValue (.word ('0' :: 'x' :: Nat.toDigits 16 n)) = some n := by
  rw [← digitsValue_toDigits (b := 16) (by decide) (by decide) n]
  cases hdigits : Nat.toDigits 16 n with
  | nil => exact absurd hdigits Nat.toDigits_ne_nil
  | cons d ds => rfl

theorem numberValue_quoted {c : Char} (hc : c.toNat < 128) : numberValue (.quoted c) = some c.toNat := if_pos hc

/-- A text stands for the number `v` when it is one token of that value. -/
def denotes (text : List Char) (v : Nat) : Prop := ∃ token, tokenise [] text = some [token] ∧ numberValue token = some v

theorem denotes_decimal (n : Nat) : denotes (Nat.toDigits 10 n) n :=
  ⟨_, tokenise_single_word Nat.toDigits_ne_nil fun _ hc => (isWordChar_of_mem_toDigits (by decide) (by decide) hc).1,
    numberValue_decimal n⟩

theorem denotes_hexadecimal (n : Nat) : denotes ('0' :: 'x' :: Nat.toDigits 16 n) n := by
  refine ⟨_, tokenise_single_word (List.cons_ne_nil _ _) fun c hc => ?_, numberValue_hexadecimal n⟩
  rcases List.mem_cons.mp hc with rfl | hc
  · decide
  rcases List.mem_cons.mp hc with rfl | hc
  · decide
  exact (isWordChar_of_mem_toDigits (by decide) (by decide) hc).1

theorem denotes_quoted {c : Char} (hc : c.toNat < 128) : denotes ['\'', c, '\''] c.toNat :=
  ⟨_, tokenise_quoted c, numberValue_quoted hc⟩

theorem assembleLine_ckbyte {v : Nat} (hv : v ≤ 255) :
    assembleLine (.ckbyte v) = some [.cmd (BitVec.ofNat 16 (0x2000 + v))] := by
  have hlt : v < 256 := by omega
  have hword : encode (.ckbyte (BitVec.ofNat 8 v)) = BitVec.ofNat 16 (0x2000 + v) := by
    apply BitVec.eq_of_toNat_eq
    rw [encode_ckbyte_toNat, BitVec.toNat_ofNat, BitVec.toNat_ofNat]
    omega
  rw [assembleLine, byteOperand, if_pos hlt, Option.map_some, hword]

theorem assembleLine_ckchunk {n : Nat} (hn : n ≤ 1024) :
    assembleLine (.ckchunk n) = some [.cmd (BitVec.ofNat 16 (0x5000 + n))] := by
  have hword : encode (.ckchunk n) = BitVec.ofNat 16 (0x5000 + n) := by
    apply BitVec.eq_of_toNat_eq
    rw [encode_ckchunk_toNat (by omega), BitVec.toNat_ofNat]
    omega
  rw [assembleLine, Config.chunkMax, if_pos hn, hword]

/-- The actions of one line are those of the text that holds it alone. -/
theorem assemble_single {line : List Char} {parsed : AsmLine} {actions : List HostAction}
    (hparse : parseLine line = some parsed) (hline : assembleLine parsed = some actions) : assemble [line] = some actions := by
  simp only [assemble, hparse, Option.bind_some, hline, List.append_nil]

theorem assemble_ckbyte {text : List Char} {v : Nat} (htext : denotes text v) (hv : v ≤ 255) :
    assemble [['C', 'K', 'B', 'Y', 'T', 'E'] ++ ' ' :: text] = some [.cmd (BitVec.ofNat 16 (0x2000 + v))] := by
  obtain ⟨token, htoken, hvalue⟩ := htext
  exact assemble_single (parsed := .ckbyte v) (parseLine_operand (by decide) (by decide) htoken hvalue) (assembleLine_ckbyte hv)

theorem assemble_ckchunk {text : List Char} {n : Nat} (htext : denotes text n) (hn : n ≤ 1024) :
    assemble [['C', 'K', 'C', 'H', 'U', 'N', 'K'] ++ ' ' :: text] = some [.cmd (BitVec.ofNat 16 (0x5000 + n))] := by
  obtain ⟨token, htoken, hvalue⟩ := htext
  exact assemble_single (parsed := .ckchunk n) (parseLine_operand (by decide) (by decide) htoken hvalue)
    (assembleLine_ckchunk hn)

/-- Lines give their actions in order. -/
theorem assemble_append {ls ls' : List (List Char)} {xs ys : List HostAction} (h : assemble ls = some xs)
    (h' : assemble ls' = some ys) : assemble (ls ++ ls') = some (xs ++ ys) := by
  induction ls generalizing xs with
  | nil =>
    obtain rfl : [] = xs := by simpa [assemble] using h
    exact h'
  | cons l ls ih =>
    rw [assemble] at h
    cases hline : (parseLine l).bind assembleLine with
    | none => simp [hline] at h
    | some first =>
      cases hlater : assemble ls with
      | none => simp [hline, hlater] at h
      | some later =>
        obtain rfl : first ++ later = xs := by simpa [hline, hlater] using h
        simp only [List.cons_append, assemble, hline, ih hlater, List.append_assoc]

theorem byteOperands_toNat (bs : List Byte) : byteOperands (bs.map BitVec.toNat) = some bs := by
  induction bs with
  | nil => rfl
  | cons b bs ih =>
    have hbyte : byteOperand b.toNat = some b := by
      rw [byteOperand, if_pos b.isLt, BitVec.ofNat_toNat, BitVec.setWidth_eq]
    rw [List.map_cons, byteOperands, hbyte, ih]

/-- Settles O20: one operand in each of its three forms, and the lines in order. -/
theorem assemblerLinesGiveTheirWords : Obligations.AssemblerLinesGiveTheirWords := by
  unfold Obligations.AssemblerLinesGiveTheirWords
  refine ⟨⟨rfl, rfl, rfl, fun _ => assembleLine_ckbyte, fun v hv => ?byteRange, fun _ => assembleLine_ckchunk,
    fun n hn => ?chunkRange⟩, fun comment hcomment => ?comment,
    fun v hv => ⟨assemble_ckbyte (denotes_decimal v) hv, assemble_ckbyte (denotes_hexadecimal v) hv⟩,
    fun n hn => ⟨assemble_ckchunk (denotes_decimal n) hn, assemble_ckchunk (denotes_hexadecimal n) hn⟩,
    fun c hc => ⟨assemble_ckbyte (denotes_quoted hc) (by omega), assemble_ckchunk (denotes_quoted hc) (by omega)⟩,
    by decide, by decide, fun _ _ _ _ => assemble_append⟩
  case byteRange => rw [assembleLine, byteOperand, if_neg (by omega), Option.map_none]
  case chunkRange => exact if_neg (Nat.not_le.mpr hn)
  case comment =>
    rcases hcomment with rfl | ⟨cs, rfl⟩ | ⟨cs, rfl⟩
    · decide
    · exact ⟨rfl, rfl, rfl, rfl, rfl, rfl, rfl⟩
    · exact ⟨rfl, rfl, rfl, rfl, rfl, rfl, rfl⟩

/-- Settles O21: the operands give their bytes back, and the texts are read by evaluation. -/
theorem pseudoInstructionsExpand : Obligations.PseudoInstructionsExpand := by
  have hoperands := byteOperands_toNat
  unfold Obligations.PseudoInstructionsExpand
  refine ⟨fun bs _ => ?ckbytes, fun bs => ?cksum, fun bs => ?dotBuf, fun _ => rfl, rfl, ?texts⟩
  case ckbytes => rw [assembleLine, hoperands]; rfl
  case cksum => rw [assembleLine, hoperands]; rfl
  case dotBuf => rw [assembleLine, hoperands]; rfl
  case texts => decide

end Sys2Proof.Machine
end
